-- ==== Sys2Proof/Word.lean ====
section
/-! DEFINITION. The plain data types of the r_6502 core: words, the flag bits, the memory image.
Widths: 00_scope.md R6; 10_state.md R20, R24, R30, R35, R36, R39. -/

namespace Sys2Proof

/-- A byte: the width of `A`, `X`, `Y` and of a memory cell (00_scope.md R6, R8). -/
abbrev Byte := BitVec 8

/-- A 16-bit byte address: the width of `PC`, of every effective address, and of the inert `SP` (R6, R24, R35). -/
abbrev Addr := BitVec 16

/-- The width of the cycle-budget down-counter `BUDGET` (R6, R36). -/
abbrev Count := BitVec 32

/-- The memory image `MEM` (10_state.md R39): the cells that differ from what an unlisted address
reads as, as (address, byte) pairs with strictly rising addresses. -/
abbrev Memory := List Host.Cell

/-- The seven single-bit flags (10_state.md R30): seven separate bits, no packed status byte (D11).
`c` carry, `z` zero, `i` interrupt-disable, `d` decimal, `b` break, `v` overflow, `n` negative. -/
structure Flags where
  c : Bool
  z : Bool
  i : Bool
  d : Bool
  b : Bool
  v : Bool
  n : Bool
  deriving DecidableEq, Repr

end Sys2Proof
end

