-- ==== Sys2Proof/Machine/Flags.lean ====
section
/-! DEFINITION. The flag generator (40_step_and_decode.md R110; the document's Flag Evaluator). -/

namespace Sys2Proof.Machine

/-- `negative(value) = bit7(value) != 0`. -/
def negative (v : Byte) : Bool := v.getLsbD 7

/-- `zero(value) = value == 0`. -/
def zero (v : Byte) : Bool := v == 0

/-- `SetNZ(v)`: writes `N` and `Z` together and no other flag (10_state.md R31, R32). -/
def setNZ (f : Flags) (v : Byte) : Flags := { f with n := negative v, z := zero v }

end Sys2Proof.Machine
end

