-- ==== Sys2Proof/Config.lean ====
section
/-! DEFINITION. What is fixed for one core and what is an input of one run, as plain data
(00_scope.md R7). The values the model runs with stand in Machine/Opcodes.lean and
Machine/Inputs.lean; everything that depends on them takes the record as an argument, so that a
claim can be stated for every choice. -/

namespace Sys2Proof

/-- The parameters of 00_scope.md R7 that fix the opcode map: the seven opcode bytes the document does
not give, and `ASSEMBLER_OPCODES`, the bytes the assembler's Opcode Table can emit.
"The seven opcode parameters ... are configuration, fixed for a given core" (10_state.md section 8). -/
structure OpcodeMap where
  ldaZp : Byte
  ldxImm : Byte
  ldxZp : Byte
  ldxAbs : Byte
  ldyImm : Byte
  ldyZp : Byte
  ldyAbs : Byte
  assembler : List Byte
  deriving DecidableEq, Repr

/-- What a run takes from outside (00_scope.md R7; 70_reset_and_hazards.md R190): the memory image
and the budget the host loads before reset, and the values of the registers and flags whose reset
value the spec leaves unspecified. -/
structure RunInputs where
  image : Memory
  budget : Count
  a : Byte
  x : Byte
  y : Byte
  sp : Addr
  flags : Flags
  deriving DecidableEq, Repr

end Sys2Proof
end

