-- ==== Sys2Proof/Machine/Inputs.lean ====
section
/-! DEFINITION. The inputs `State.reset` stands for: the one run that is loaded with nothing. -/

namespace Sys2Proof.Machine

/-- The inputs of `State.reset`.
`image` is the memory as created, every byte `0x00`, with nothing written by the host
(70_reset_and_hazards.md R190, R194 step 1).
`budget` is `budget_in`, "an input of every run" (00_scope.md R7): here the sum of the costs of no
instruction, 0 (30_encoding.md R91; DEDUCED, notes/assumptions/5.md).
`a`, `x`, `y`, `sp` and the flags are "unspecified: any value" in the spec; DESIGN CHOICE zero, unsafe
(notes/assumptions/4.md). No statement rests on these values: every statement about reset quantifies
over `RunInputs`. -/
def resetInputs : RunInputs where
  image := []
  budget := 0
  a := 0
  x := 0
  y := 0
  sp := 0
  flags := ⟨false, false, false, false, false, false, false⟩

end Sys2Proof.Machine
end

