-- ==== Sys2Proof/Machine/State.lean ====
section
/-! DEFINITION. The state of the machine, all of it (10_state.md section 1), the reasons a step could
stop, and reset (70_reset_and_hazards.md R190). -/

namespace Sys2Proof.Machine

/-- The run state `RUN` (10_state.md R37). -/
inductive RunState
  | running
  | halted
  deriving DecidableEq, Repr

/-- The four run-time fault kinds (60_exceptions.md R160). They carry no payload: the opcode byte is
`MEM[PC]` after fault entry (R172; notes/assumptions/8.md). -/
inductive FaultKind
  /-- The opcode byte is not in the assembler's Opcode Table (R161). -/
  | illegalOpcode
  /-- The opcode byte is in the assembler's Opcode Table and not in the executed set (R162). -/
  | unimplementedOpcode
  /-- `BUDGET = 0` before a cycle other than the opcode fetch (R163). -/
  | budgetUnderrun
  /-- The byte consumed is at `0xFFFF`, so `PC + 1` leaves the address space (R164). -/
  | outOfRange
  deriving DecidableEq, Repr

/-- The machine's state: every piece the spec gives it, and nothing else
(00_scope.md R9; 10_state.md section 1). -/
structure State where
  /-- Accumulator `A` (R20). -/
  a : Byte
  /-- Index register `X`; it indexes nothing (R20, R22). -/
  x : Byte
  /-- Index register `Y`; it indexes nothing (R20, R22). -/
  y : Byte
  /-- Program counter (R24). -/
  pc : Addr
  /-- Stack pointer, 16 bits, inert (R35). -/
  sp : Addr
  /-- The seven flags (R30). -/
  flags : Flags
  /-- Cycle-budget down-counter `BUDGET` (R36). -/
  budget : Count
  /-- `RUN` (R37). -/
  run : RunState
  /-- The fault report `FAULT` (R38); `none` is the spec's own value `None`. -/
  fault : Option FaultKind
  /-- The memory image `MEM` (R39). -/
  mem : Memory
  deriving DecidableEq, Repr

/-- The reasons a step ends in no state: there is none. Every fault of this hardware is taken: it is a
NEXT state, with `RUN = Halted`, `FAULT` set and `PC` restored (60_exceptions.md R170), and a halted
core "stays as it is until reset" (40_step_and_decode.md R101). Nobody raises a value of this type, so
no claim is made true or false by it (safe): notes/assumptions/7.md. -/
inductive Fault
  deriving DecidableEq, Repr

/-- The reasons an instruction is refused. -/
inductive Refusal
  /-- Raised by an arm of `exec` whose instruction has no meaning yet; no arm does so. Safe: the model
  stops where the hardware goes on. -/
  | notModelled (mnemonic : String)
  deriving DecidableEq, Repr

/-- The state right after reset, for given inputs of the run (70_reset_and_hazards.md R190): `PC` is
the constant `0x0000` (10_state.md R29), `RUN = Running`, `FAULT = None`, `BUDGET = budget_in`,
`MEM = image_in`, and everything the spec leaves unspecified at the value the inputs give. -/
def State.resetWith (r : RunInputs) : State where
  a := r.a
  x := r.x
  y := r.y
  pc := 0
  sp := r.sp
  flags := r.flags
  budget := r.budget
  run := .running
  fault := none
  mem := r.image

/-- The machine right after reset with nothing loaded: `resetWith` at `resetInputs`
(notes/assumptions/4.md, 5.md). -/
def State.reset : State := State.resetWith resetInputs

end Sys2Proof.Machine
end

