-- ==== Sys2Proof/Syntax.lean ====
section
/-! DEFINITION. The instructions: one constructor per row of spec/opcode_table.json
(40_step_and_decode.md R108; 41_loads.md R130 to R138), and the names the control ROM uses. -/

namespace Sys2Proof

/-- The register file's names `A`, `X`, `Y` (10_state.md R20). -/
inductive Reg
  | a
  | x
  | y
  deriving DecidableEq, Repr

/-- The engine's three addressing modes (41_loads.md, summary F6; 42_absent_families.md R152). -/
inductive Mode
  | imm
  | zp
  | abs
  deriving DecidableEq, Repr

/-- An instruction with its operand bytes, in the order they stand in memory (30_encoding.md R72 to R74). -/
inductive Instr
  /-- LDA immediate, R130. -/
  | ldaImm (imm8 : Byte)
  /-- LDA zero-page, R131. -/
  | ldaZp (zp8 : Byte)
  /-- LDA absolute, R132. -/
  | ldaAbs (lo hi : Byte)
  /-- LDX immediate, R133. -/
  | ldxImm (imm8 : Byte)
  /-- LDX zero-page, R134. -/
  | ldxZp (zp8 : Byte)
  /-- LDX absolute, R135. -/
  | ldxAbs (lo hi : Byte)
  /-- LDY immediate, R136. -/
  | ldyImm (imm8 : Byte)
  /-- LDY zero-page, R137. -/
  | ldyZp (zp8 : Byte)
  /-- LDY absolute, R138. -/
  | ldyAbs (lo hi : Byte)
  deriving DecidableEq, Repr

/-- What the control ROM gives for an opcode byte (40_step_and_decode.md R107). -/
inductive Entry
  | load (dest : Reg) (mode : Mode)
  /-- A byte of `ASSEMBLER_OPCODES` outside the executed set (30_encoding.md R80). -/
  | unimplemented
  /-- A byte outside `ASSEMBLER_OPCODES` (30_encoding.md R80). -/
  | illegal
  deriving DecidableEq, Repr

/-- Why a sequence of bytes is not an instruction. -/
inductive DecodeError
  /-- There is no byte to decode. -/
  | noBytes
  /-- The byte list ends inside the instruction's operand bytes. -/
  | truncated
  /-- The opcode byte decodes to nothing (60_exceptions.md R161). -/
  | illegalOpcode (op : Byte)
  /-- The opcode byte is in the assembler's table and not in the executed set (60_exceptions.md R162). -/
  | unimplementedOpcode (op : Byte)
  deriving DecidableEq, Repr

/-- The decoder's answer: an instruction and the bytes after it, or a rejection by name. -/
inductive Decoded
  | ok (i : Instr) (rest : List Byte)
  | bad (e : DecodeError)
  deriving DecidableEq, Repr

end Sys2Proof
end

