-- ==== Sys2Proof/Machine/Ops.lean ====
section
/-! DEFINITION. The named operations: memory, the register file, the cycle primitives, the halt
transition and fault entry. There is no return from a fault (60_exceptions.md R173). -/

namespace Sys2Proof

/-! ### Memory (00_scope.md R10; 20_memory.md) -/

/-- What an address nothing was written to reads as: `0x00`, "zero-initialized at creation" (10_state.md R39). -/
def Memory.unlisted : Byte := 0

/-- The byte at a numeric address. -/
def Memory.lookup : Memory → Nat → Byte
  | [], _ => Memory.unlisted
  | (k, v) :: rest, a => if a = k then v else Memory.lookup rest a

/-- Puts a byte at a numeric address, keeping the canonical form: a cell that would hold what an
unlisted address reads as is not listed. -/
def Memory.insert : Memory → Nat → Byte → Memory
  | [], a, b => if b = Memory.unlisted then [] else [(a, b)]
  | (k, v) :: rest, a, b =>
    if a < k then (if b = Memory.unlisted then (k, v) :: rest else (a, b) :: (k, v) :: rest)
    else if a = k then (if b = Memory.unlisted then rest else (a, b) :: rest)
    else (k, v) :: Memory.insert rest a b

/-- `MemRead(addr, 1)`: changes no state and always succeeds (00_scope.md R10; 20_memory.md R55, R56). -/
def Memory.read (mem : Memory) (addr : Addr) : Byte := mem.lookup addr.toNat

/-- `MemWrite(addr, 1, v)`: the host's primitive for loading the image. The core never calls it
(00_scope.md R10; 20_memory.md R57). -/
def Memory.write (mem : Memory) (addr : Addr) (v : Byte) : Memory := mem.insert addr.toNat v

/-- The image the host has loaded: the writes in order, over a memory created all `0x00`
(70_reset_and_hazards.md R193, R194 steps 1 and 2). -/
def Memory.load (writes : List (Addr × Byte)) : Memory :=
  writes.foldl (fun mem w => mem.write w.1 w.2) []

namespace Machine

/-! ### The register file (10_state.md R20, R21) -/

/-- `x[r]`. -/
def State.reg (s : State) : Reg → Byte
  | .a => s.a
  | .x => s.x
  | .y => s.y

/-- `x[r] <- v`: all 8 bits, no other register. -/
def State.setReg (s : State) : Reg → Byte → State
  | .a, v => { s with a := v }
  | .x, v => { s with x := v }
  | .y, v => { s with y := v }

/-- The commit of a load: `x[r] <- v; SetNZ(v)` (40_step_and_decode.md R109, R113). The ALU passes the
byte through unchanged (R111). -/
def State.commit (s : State) (r : Reg) (v : Byte) : State :=
  { s.setReg r v with flags := setNZ s.flags v }

/-! ### Cycles (40_step_and_decode.md section 2) -/

/-- How one or more cycles end: with a value, or by raising a fault. In both cases the state carries the
budget decrements made so far (60_exceptions.md R170). -/
inductive CycleEnd (α : Type)
  | done (v : α) (s : State)
  | raise (f : FaultKind) (s : State)
  deriving DecidableEq, Repr

/-- The cycles that follow; none does after a raise (00_scope.md R11). -/
def CycleEnd.andThen {α β : Type} (c : CycleEnd α) (k : α → State → CycleEnd β) : CycleEnd β :=
  match c with
  | .done v s => k v s
  | .raise f s => .raise f s

/-- `IncPC(p)`: at `0xFFFF` it raises `OutOfRange`, it does not wrap (R104). -/
def incPC (p : Addr) : Option Addr := if p = 0xFFFF then none else some (p + 1)

/-- `Consume()`: underrun test, read at `PC`, budget decrement, `PC` increment, in that order
(R105; 60_exceptions.md R168). -/
def State.consume (s : State) : CycleEnd Byte :=
  if s.budget = 0 then .raise .budgetUnderrun s
  else
    let b := s.mem.read s.pc
    let s := { s with budget := s.budget - 1 }
    match incPC s.pc with
    | none => .raise .outOfRange s
    | some p => .done b { s with pc := p }

/-- `ReadData(a)`: underrun test, read at `a`, budget decrement; `PC` unchanged (R106). -/
def State.readData (s : State) (addr : Addr) : CycleEnd Byte :=
  if s.budget = 0 then .raise .budgetUnderrun s
  else .done (s.mem.read addr) { s with budget := s.budget - 1 }

/-! ### Halting and fault entry -/

/-- The halt transition: `RUN <- Halted` and nothing else changes (R102). -/
def State.halt (s : State) : State := { s with run := .halted }

/-- Fault entry (60_exceptions.md R170), `s` being the state at the raise and `pc0` the address of the
faulting instruction's opcode byte: `PC <- pc0; RUN <- Halted; FAULT <- F`. `BUDGET` keeps every
decrement; everything else is unchanged. Nothing is saved and control goes nowhere. -/
def State.faultEntry (s : State) (pc0 : Addr) (f : FaultKind) : State :=
  { s with pc := pc0, run := .halted, fault := some f }

/-- An instruction begun at boundary state `s`: its cycles end, or its raise is taken as fault entry at
the instruction's own address. The instruction is atomic (R100). -/
def State.conclude (s : State) : CycleEnd Unit → State
  | .done _ t => t
  | .raise f t => t.faultEntry s.pc f

end Machine

end Sys2Proof
end

