-- ==== Sys2Proof/Machine/Operands.lean ====
section
/-! DEFINITION. Operand assembly, one operation per addressing mode (30_encoding.md R76;
40_step_and_decode.md R109). Each is the cycles after the opcode fetch and delivers the operand byte.
The operand bytes are the instruction's own fields: they are the bytes those cycles consume, decoded
from the same addresses (notes/assumptions/15.md). -/

namespace Sys2Proof.Machine

/-- `zext_16(a)`: the byte with the upper eight bits zero (00_scope.md R8). -/
def zext16 (a : Byte) : Addr := BitVec.setWidth 16 a

/-- The concatenation of two bytes, `hi * 256 + lo` (00_scope.md R8): little-endian operand bytes
(20_memory.md R50). -/
def address (lo hi : Byte) : Addr := hi ++ lo

/-- Immediate: consume the literal byte (1 cycle). -/
def immediateOperand (imm8 : Byte) (s : State) : CycleEnd Byte :=
  s.consume.andThen fun _ t => .done imm8 t

/-- Zero-page: consume the address byte, read the data byte (2 cycles). -/
def zeroPageOperand (zp8 : Byte) (s : State) : CycleEnd Byte :=
  s.consume.andThen fun _ t => t.readData (zext16 zp8)

/-- Absolute: consume the address bytes low then high, read the data byte (3 cycles). -/
def absoluteOperand (lo hi : Byte) (s : State) : CycleEnd Byte :=
  s.consume.andThen fun _ t => t.consume.andThen fun _ u => u.readData (address lo hi)

/-- The operand value of an instruction (30_encoding.md R76, last two columns): the literal byte, or the
byte of `MEM` at the effective address. -/
def operandValue (s : State) : Instr → Byte
  | .ldaImm v => v
  | .ldaZp a => s.mem.read (zext16 a)
  | .ldaAbs lo hi => s.mem.read (address lo hi)
  | .ldxImm v => v
  | .ldxZp a => s.mem.read (zext16 a)
  | .ldxAbs lo hi => s.mem.read (address lo hi)
  | .ldyImm v => v
  | .ldyZp a => s.mem.read (zext16 a)
  | .ldyAbs lo hi => s.mem.read (address lo hi)

end Sys2Proof.Machine
end

