-- ==== Sys2Proof/Machine/Loads.lean ====
section
/-! DEFINITION. The nine load instructions (41_loads.md R130 to R138), each one line over `load`.

A meaning takes the state at the instruction boundary and gives the state at the next one, or the state
after fault entry; both are next states. It does not test `RUN` or the boundary's `BUDGET = 0`: those are
the step's (40_step_and_decode.md R101, R102; notes/assumptions/14.md). -/

namespace Sys2Proof.Machine

/-- `Load(r, mode)` of R109: opcode fetch, the mode's operand cycles, then the commit, which comes after
every cycle (R113). -/
def load (r : Reg) (operand : State → CycleEnd Byte) (s : State) : Host.Outcome State Fault Refusal :=
  .next (s.conclude (s.consume.andThen fun _ t => (operand t).andThen fun v u => .done () (u.commit r v)))

/-- LDA immediate (R130). -/
def execLdaImm (imm8 : Byte) (s : State) : Host.Outcome State Fault Refusal :=
  load .a (immediateOperand imm8) s

/-- LDA zero-page (R131). -/
def execLdaZp (zp8 : Byte) (s : State) : Host.Outcome State Fault Refusal :=
  load .a (zeroPageOperand zp8) s

/-- LDA absolute (R132). -/
def execLdaAbs (lo hi : Byte) (s : State) : Host.Outcome State Fault Refusal :=
  load .a (absoluteOperand lo hi) s

/-- LDX immediate (R133). -/
def execLdxImm (imm8 : Byte) (s : State) : Host.Outcome State Fault Refusal :=
  load .x (immediateOperand imm8) s

/-- LDX zero-page (R134). -/
def execLdxZp (zp8 : Byte) (s : State) : Host.Outcome State Fault Refusal :=
  load .x (zeroPageOperand zp8) s

/-- LDX absolute (R135). -/
def execLdxAbs (lo hi : Byte) (s : State) : Host.Outcome State Fault Refusal :=
  load .x (absoluteOperand lo hi) s

/-- LDY immediate (R136). -/
def execLdyImm (imm8 : Byte) (s : State) : Host.Outcome State Fault Refusal :=
  load .y (immediateOperand imm8) s

/-- LDY zero-page (R137). -/
def execLdyZp (zp8 : Byte) (s : State) : Host.Outcome State Fault Refusal :=
  load .y (zeroPageOperand zp8) s

/-- LDY absolute (R138). -/
def execLdyAbs (lo hi : Byte) (s : State) : Host.Outcome State Fault Refusal :=
  load .y (absoluteOperand lo hi) s

end Sys2Proof.Machine
end

