-- ==== Sys2Proof/Machine/Opcodes.lean ====
section
/-! DEFINITION. The opcode map: the two bytes the document fixes, the table by register and mode, and
the parameter values this model runs with (30_encoding.md R77, R78; 00_scope.md R6, R7). -/

namespace Sys2Proof

/-- LDA immediate is `0x89`: what the document says, twice (30_encoding.md R77; 90_conflicts.md C6). -/
def ldaImmOpcode : Byte := 0x89

/-- LDA absolute is `0xAD` (30_encoding.md R77). -/
def ldaAbsOpcode : Byte := 0xAD

/-- The opcode byte of each of the nine variants (40_step_and_decode.md R108, first column). -/
def OpcodeMap.opcodeFor (m : OpcodeMap) : Reg → Mode → Byte
  | .a, .imm => ldaImmOpcode
  | .a, .zp => m.ldaZp
  | .a, .abs => ldaAbsOpcode
  | .x, .imm => m.ldxImm
  | .x, .zp => m.ldxZp
  | .x, .abs => m.ldxAbs
  | .y, .imm => m.ldyImm
  | .y, .zp => m.ldyZp
  | .y, .abs => m.ldyAbs

/-- The executed set's nine bytes, in the order of R108. -/
def OpcodeMap.executed (m : OpcodeMap) : List Byte :=
  [m.opcodeFor .a .imm, m.opcodeFor .a .zp, m.opcodeFor .a .abs,
   m.opcodeFor .x .imm, m.opcodeFor .x .zp, m.opcodeFor .x .abs,
   m.opcodeFor .y .imm, m.opcodeFor .y .zp, m.opcodeFor .y .abs]

/-- The parameter values `step` runs with: the spec's defaults (00_scope.md R7; 30_encoding.md R78).
PRESUMED (the seven bytes are the MOS 6502's, "from general knowledge, not in source"), unsafe:
notes/assumptions/1.md. `ASSEMBLER_OPCODES` is the default of R7, the nine executed bytes:
notes/assumptions/2.md. -/
def Config.opcodes : OpcodeMap where
  ldaZp := 0xA5
  ldxImm := 0xA2
  ldxZp := 0xA6
  ldxAbs := 0xAE
  ldyImm := 0xA0
  ldyZp := 0xA4
  ldyAbs := 0xAC
  assembler := [0x89, 0xA5, 0xAD, 0xA2, 0xA6, 0xAE, 0xA0, 0xA4, 0xAC]

end Sys2Proof
end

