-- ==== Sys2Proof/WellFormed.lean ====
section
/-! DEFINITION. Which configurations, memories and run inputs are meant.

An instruction alone has nothing to check: its operand fields are bytes, and the spec admits every
operand byte in every format (30_encoding.md R72 to R76: no value of `imm8`, `zp8`, `lo`, `hi` is
reserved). What can be ill-formed is the opcode map it is encoded with (R79), and the memory. -/

namespace Sys2Proof

/-- "opcode values are unique across all variants" (30_encoding.md R79; 00_scope.md R7): the nine
executed bytes are pairwise distinct, and `ASSEMBLER_OPCODES` is a superset of them. A map that fails
this "is not a configuration of this hardware".

DESIGN CHOICE, safe (notes/assumptions/23.md): of the seven bytes themselves only distinctness is asked. A map that
gives an executed variant the byte `0x00` or `0xEA` is admitted, though R81 and 70_reset_and_hazards.md R200 say
without condition that `0x00` is not in the executed set and faults (and R81 the same of `0xEA`).
At `Config.opcodes` both bytes fault. -/
abbrev OpcodeMap.WellFormed (m : OpcodeMap) : Prop :=
  m.executed.Nodup ∧ ∀ op ∈ m.executed, op ∈ m.assembler

/-- The memory's canonical form from address `lo` on: addresses strictly rising, all below 65 536, and
no cell holding the `0x00` that an unlisted address reads as (10_state.md R39). -/
def Memory.wfFrom : Nat → Memory → Bool
  | _, [] => true
  | lo, (k, v) :: rest => lo ≤ k && k < 65536 && v != 0 && Memory.wfFrom (k + 1) rest

/-- The memory is in canonical form, so that equal memories are equal lists. -/
def Memory.wf (mem : Memory) : Bool := Memory.wfFrom 0 mem

/-- A run's inputs are well formed when the image is in canonical form; every other value of every
field is admitted (70_reset_and_hazards.md R190: "any value"). -/
abbrev RunInputs.WellFormed (r : RunInputs) : Prop := r.image.wf = true

end Sys2Proof
end

