-- ==== Sys2Proof/Decode.lean ====
section
/-! DEFINITION. The control ROM, the decoder and the encoder (30_encoding.md sections 1 to 5;
40_step_and_decode.md R107, R108). All take the opcode map as an argument; `decode` and `encode` are
at the model's own map `Config.opcodes`. -/

namespace Sys2Proof

/-! ### The control ROM -/

/-- One row of the control ROM. -/
structure RomRow where
  opcode : Byte
  dest : Reg
  mode : Mode
  deriving DecidableEq, Repr

/-- The nine meaningful rows, in the order of R108. -/
def romRows (m : OpcodeMap) : List RomRow :=
  [⟨m.opcodeFor .a .imm, .a, .imm⟩, ⟨m.opcodeFor .a .zp, .a, .zp⟩, ⟨m.opcodeFor .a .abs, .a, .abs⟩,
   ⟨m.opcodeFor .x .imm, .x, .imm⟩, ⟨m.opcodeFor .x .zp, .x, .zp⟩, ⟨m.opcodeFor .x .abs, .x, .abs⟩,
   ⟨m.opcodeFor .y .imm, .y, .imm⟩, ⟨m.opcodeFor .y .zp, .y, .zp⟩, ⟨m.opcodeFor .y .abs, .y, .abs⟩]

/-- `ControlROM`: matches all 8 bits of the opcode byte against the table (R70, R107). Total: a byte
outside the nine is `unimplemented` or `illegal` according to `ASSEMBLER_OPCODES` (R80). -/
def controlRom (m : OpcodeMap) (op : Byte) : Entry :=
  match (romRows m).find? (fun row => row.opcode == op) with
  | some row => .load row.dest row.mode
  | none => if op ∈ m.assembler then .unimplemented else .illegal

/-- Operand bytes of a mode (R72 to R74). -/
def Mode.operandBytes : Mode → Nat
  | .imm => 1
  | .zp => 1
  | .abs => 2

/-- Cycle cost of a mode (R108): 1 for the opcode, 1 for each operand byte, 1 for the data byte. -/
def Mode.cost : Mode → Nat
  | .imm => 2
  | .zp => 3
  | .abs => 4

/-- The destination register of an instruction (R108). -/
def Instr.dest : Instr → Reg
  | .ldaImm _ => .a
  | .ldaZp _ => .a
  | .ldaAbs _ _ => .a
  | .ldxImm _ => .x
  | .ldxZp _ => .x
  | .ldxAbs _ _ => .x
  | .ldyImm _ => .y
  | .ldyZp _ => .y
  | .ldyAbs _ _ => .y

/-- The addressing mode of an instruction (R108). -/
def Instr.mode : Instr → Mode
  | .ldaImm _ => .imm
  | .ldaZp _ => .zp
  | .ldaAbs _ _ => .abs
  | .ldxImm _ => .imm
  | .ldxZp _ => .zp
  | .ldxAbs _ _ => .abs
  | .ldyImm _ => .imm
  | .ldyZp _ => .zp
  | .ldyAbs _ _ => .abs

/-- The operand bytes of an instruction, as they stand in memory: an absolute address low byte first
(30_encoding.md R74; 20_memory.md R50). -/
def Instr.operands : Instr → List Byte
  | .ldaImm v => [v]
  | .ldaZp a => [a]
  | .ldaAbs lo hi => [lo, hi]
  | .ldxImm v => [v]
  | .ldxZp a => [a]
  | .ldxAbs lo hi => [lo, hi]
  | .ldyImm v => [v]
  | .ldyZp a => [a]
  | .ldyAbs lo hi => [lo, hi]

/-- Length in bytes: the opcode byte and the operand bytes (R70, R75). -/
def Instr.length (i : Instr) : Nat := 1 + i.mode.operandBytes

/-- Cycle cost (R108). -/
def Instr.cost (i : Instr) : Nat := i.mode.cost

/-! ### The decoder -/

/-- The immediate load of a register. -/
def Instr.immediate : Reg → Byte → Instr
  | .a, v => .ldaImm v
  | .x, v => .ldxImm v
  | .y, v => .ldyImm v

/-- The zero-page load of a register. -/
def Instr.zeroPage : Reg → Byte → Instr
  | .a, a => .ldaZp a
  | .x, a => .ldxZp a
  | .y, a => .ldyZp a

/-- The absolute load of a register. -/
def Instr.absolute : Reg → Byte → Byte → Instr
  | .a, lo, hi => .ldaAbs lo hi
  | .x, lo, hi => .ldxAbs lo hi
  | .y, lo, hi => .ldyAbs lo hi

/-- Takes the mode's operand bytes from the bytes after the opcode (R72 to R74). -/
def decodeOperands (r : Reg) : Mode → List Byte → Decoded
  | .imm, v :: rest => .ok (Instr.immediate r v) rest
  | .zp, a :: rest => .ok (Instr.zeroPage r a) rest
  | .abs, lo :: hi :: rest => .ok (Instr.absolute r lo hi) rest
  | .imm, [] => .bad .truncated
  | .zp, [] => .bad .truncated
  | .abs, [] => .bad .truncated
  | .abs, [_] => .bad .truncated

/-- Decodes the instruction at the head of a byte list, total and rejecting by name: the opcode byte
alone determines the format (R70, R75). -/
def decodeWith (m : OpcodeMap) : List Byte → Decoded
  | [] => .bad .noBytes
  | op :: rest =>
    match controlRom m op with
    | .illegal => .bad (.illegalOpcode op)
    | .unimplemented => .bad (.unimplementedOpcode op)
    | .load r mode => decodeOperands r mode rest

/-- The decoder of the core `step` models. -/
def decode (bytes : List Byte) : Decoded := decodeWith Config.opcodes bytes

/-! ### The encoder -/

/-- The bytes of an instruction: its opcode byte, then its operand bytes (R70). -/
def encodeWith (m : OpcodeMap) (i : Instr) : List Byte :=
  m.opcodeFor i.dest i.mode :: i.operands

/-- The encoder at the model's own opcode map. -/
def encode (i : Instr) : List Byte := encodeWith Config.opcodes i

/-! ### Words numbered as spec/opcode_table.json numbers them -/

/-- The bits of `w` below `nbits`, zero above, cut into the three bytes of the longest instruction, the
byte of bits 7..0 first (lowest address). -/
def wordBytes (nbits w : Nat) : List Byte :=
  let v := w % 2 ^ nbits
  [BitVec.ofNat 8 v, BitVec.ofNat 8 (v / 256), BitVec.ofNat 8 (v / 65536)]

/-- The instruction the decoder reads from a table word, none where it rejects the bytes. -/
def decodeTableWord (nbits w : Nat) : Option Instr :=
  match decode (wordBytes nbits w) with
  | .ok i _ => some i
  | .bad _ => none

end Sys2Proof
end

