-- ==== Sys2Proof/Machine/Fetch.lean ====
section
/-! DEFINITION. What a step does around the instruction: the precondition, the halt test, the opcode
fetch and the decode (40_step_and_decode.md R101, R102, R109), and where the host places a word. -/

namespace Sys2Proof

/-- Up to `k` bytes from a numeric address on, those that exist: there is none at or above 65 536, and
nothing wraps (20_memory.md R53). -/
def Memory.bytesFrom (mem : Memory) : Nat → Nat → List Byte
  | 0, _ => []
  | k + 1, a => if a < 65536 then mem.lookup a :: Memory.bytesFrom mem k (a + 1) else []

/-- Writes bytes at rising addresses from a numeric address on; nothing at or above 65 536. -/
def Memory.place : List Byte → Nat → Memory → Memory
  | [], _, mem => mem
  | b :: rest, a, mem => if a < 65536 then Memory.place rest (a + 1) (mem.insert a b) else mem

namespace Machine

/-- The bytes an instruction at `PC` could have: as many as the longest instruction, three (R74, R75). -/
def State.window (s : State) : List Byte := s.mem.bytesFrom 3 s.pc.toNat

/-- `n` consumed bytes in a row. -/
def State.consumeMany : Nat → State → CycleEnd Unit
  | 0, s => .done () s
  | n + 1, s => s.consume.andThen fun _ t => State.consumeMany n t

/-- An instruction whose operand bytes run past `0xFFFF`: its bytes are consumed until one raises, and
no later byte is ever read (R168, rows `p = 0xFFFE`; notes/assumptions/12.md). -/
def State.cutShort (s : State) : State :=
  s.conclude (State.consumeMany 3 s)

/-- What a step finds at an instruction boundary. -/
inductive Boundary
  /-- An instruction to execute. -/
  | instr (i : Instr)
  /-- The step's next state, no instruction being executed. -/
  | settled (t : State)
  deriving DecidableEq, Repr

/-- Opcode fetch and decode at a running core with budget left (R109). The opcode cycle comes first, so
`OutOfRange` at `0xFFFF` precedes decode (60_exceptions.md R168); a byte outside the executed set faults
with that one cycle charged (R161, R162). -/
def fetch (m : OpcodeMap) (s : State) : Boundary :=
  match s.consume with
  | .raise f t => .settled (t.faultEntry s.pc f)
  | .done _ t =>
    match decodeWith m s.window with
    | .ok i _ => .instr i
    | .bad (.illegalOpcode _) => .settled (t.faultEntry s.pc .illegalOpcode)
    | .bad (.unimplementedOpcode _) => .settled (t.faultEntry s.pc .unimplementedOpcode)
    | .bad .truncated => .settled s.cutShort
    | .bad .noBytes => .settled s.cutShort

/-- The boundary: a halted core stays as it is (R101; notes/assumptions/6.md); `BUDGET = 0` halts it
before any fetch (R102); otherwise the opcode is fetched. -/
def boundary (m : OpcodeMap) (s : State) : Boundary :=
  match s.run with
  | .halted => .settled s
  | .running => if s.budget = 0 then .settled s.halt else fetch m s

/-- The least budget the instruction in these bytes runs on: its cost, or the one cycle of an opcode
fetch that faults (70_reset_and_hazards.md R204). -/
def budgetFor (bytes : List Byte) : Count :=
  match decode bytes with
  | .ok i _ => BitVec.ofNat 32 i.cost
  | .bad _ => 1

/-- The host's load of one table word as the next instruction (70_reset_and_hazards.md R193, R194): the
bytes at `PC`, at least the budget they need, and the core released to run. Nothing else changes
(notes/assumptions/13.md). -/
def State.placeWord (s : State) (nbits w : Nat) : State :=
  let bytes := wordBytes nbits w
  { s with
    mem := Memory.place bytes s.pc.toNat s.mem
    budget := if s.budget < budgetFor bytes then budgetFor bytes else s.budget
    run := .running
    fault := none }

end Machine

end Sys2Proof
end

