-- ==== Sys2Proof/Machine/Step.lean ====
section
/-! DEFINITION. The step: the halt transition or one whole instruction (40_step_and_decode.md R100, R109). -/

namespace Sys2Proof.Machine

/-- `Step` of a core with opcode map `m` (R109). -/
def stepWith (m : OpcodeMap) (s : State) : Host.Outcome State Fault Refusal :=
  match boundary m s with
  | .settled t => .next t
  | .instr i => exec i s

/-- The step of the core the model runs: `stepWith` at the spec's default parameters. -/
def step (s : State) : Host.Outcome State Fault Refusal := stepWith Config.opcodes s

/-- `s` with a table word stored where the next step fetches, and the core ready to run it. -/
def State.withFetchWord (s : State) (nbits w : Nat) : State := s.placeWord nbits w

end Sys2Proof.Machine
end

