-- ==== Sys2Proof/Machine/Assembler.lean ====
section
/-! DEFINITION. The assembler (30_encoding.md section 6, R83 to R93): host software, not part of the core
(00_scope.md R4). It is modelled because it is how the host builds the image and the budget
(70_reset_and_hazards.md R194), for the mnemonics of the executed set (R84). No definition of the core
uses this file. Source text is a list of characters; a source is a list of lines. -/

namespace Sys2Proof.Assembler

/-- The assembler's error kinds (R92), less `SourceIOError`, which is out of scope (00_scope.md R5), and
`CycleTableError`, which "cannot happen" (R89). -/
inductive AsmError
  /-- "unknown mnemonic or malformed operand token"; it carries the mnemonic (R84, R86). -/
  | syntaxError (mnemonic : List Char)
  /-- The operand begins with neither `#` nor `$` (R85). -/
  | unsupportedOperandSyntax
  /-- The mnemonic has no variant of this shape; a load without an operand (R88). -/
  | unsupportedAddressingMode
  /-- A numeral above `0xFFFF`, or a write at or beyond `0x10000` (R87, R90). -/
  | outOfRange
  deriving DecidableEq, Repr

/-- A line's instruction, or the error its resolution ends in. -/
inductive Resolved
  | instr (i : Instr)
  | error (e : AsmError)
  deriving DecidableEq, Repr

/-- Mnemonic lookup, exact-case (R84): the executed set's three mnemonics (D2). -/
def mnemonic : List Char → Option Reg
  | ['L', 'D', 'A'] => some .a
  | ['L', 'D', 'X'] => some .x
  | ['L', 'D', 'Y'] => some .y
  | _ => none

/-- The value of a decimal digit. -/
def decDigit (ch : Char) : Option Nat :=
  if 48 ≤ ch.toNat ∧ ch.toNat ≤ 57 then some (ch.toNat - 48) else none

/-- The value of a hexadecimal digit: `0-9`, `A-F`, `a-f` (R87, D15). -/
def hexDigit (ch : Char) : Option Nat :=
  if 48 ≤ ch.toNat ∧ ch.toNat ≤ 57 then some (ch.toNat - 48)
  else if 65 ≤ ch.toNat ∧ ch.toNat ≤ 70 then some (ch.toNat - 55)
  else if 97 ≤ ch.toNat ∧ ch.toNat ≤ 102 then some (ch.toNat - 87)
  else none

/-- The value of a digit string read after a value `acc`, in a base. -/
def numeralFrom (digit : Char → Option Nat) (base : Nat) : Nat → List Char → Option Nat
  | acc, [] => some acc
  | acc, ch :: rest =>
    match digit ch with
    | some d => numeralFrom digit base (acc * base + d) rest
    | none => none

/-- The value of a numeral; an empty one has none (R86, D15). -/
def numeral (digit : Char → Option Nat) (base : Nat) : List Char → Option Nat
  | [] => none
  | ch :: rest => numeralFrom digit base 0 (ch :: rest)

/-- The operand text after `#` (R86): `$` and exactly two hex digits, or a decimal numeral up to 255. -/
def immediateValue : List Char → Option Byte
  | '$' :: text =>
    if text.length = 2 then (numeral hexDigit 16 text).map (BitVec.ofNat 8) else none
  | text =>
    match numeral decDigit 10 text with
    | some v => if v < 256 then some (BitVec.ofNat 8 v) else none
    | none => none

/-- A memory reference of a given value: zero-page below `0x100`, else absolute, by value and not by
digit count (R87; 90_conflicts.md C4); above `0xFFFF` out of range. -/
def memoryReference (r : Reg) (v : Nat) : Resolved :=
  if v < 0x100 then .instr (Instr.zeroPage r (BitVec.ofNat 8 v))
  else if v < 0x10000 then .instr (Instr.absolute r (BitVec.ofNat 8 v) (BitVec.ofNat 8 (v / 256)))
  else .error .outOfRange

/-- Operand classification by the first character of the operand text (R85 to R88). `name` is the
mnemonic a `SyntaxError` carries. -/
def operand (name : List Char) (r : Reg) : List Char → Resolved
  | [] => .error .unsupportedAddressingMode
  | ch :: text =>
    if ch = '#' then
      match immediateValue text with
      | some v => .instr (Instr.immediate r v)
      | none => .error (.syntaxError name)
    else if ch = '$' then
      match numeral hexDigit 16 text with
      | some v => memoryReference r v
      | none => .error (.syntaxError name)
    else .error .unsupportedOperandSyntax

/-- The characters before the first space. -/
def word : List Char → List Char
  | [] => []
  | ch :: rest => if ch = ' ' then [] else ch :: word rest

/-- The characters from the first space on. -/
def afterWord : List Char → List Char
  | [] => []
  | ch :: rest => if ch = ' ' then ch :: rest else afterWord rest

/-- The text without its leading spaces. -/
def skipSpaces : List Char → List Char
  | [] => []
  | ch :: rest => if ch = ' ' then skipSpaces rest else ch :: rest

/-- One non-empty line: `MNEMONIC [OPERAND]`, separated by one or more spaces (R83, D15). -/
def resolveLine (line : List Char) : Resolved :=
  match mnemonic (word line) with
  | none => .error (.syntaxError (word line))
  | some r => operand (word line) r (skipSpaces (afterWord line))

/-- What the assembler carries from line to line (R90, R91). -/
structure Progress where
  /-- The next free write address. -/
  cursor : Nat
  image : Memory
  /-- The Memory Image's cycle-budget counter. -/
  budget : Count
  deriving DecidableEq, Repr

/-- The end of a pass, or of a part of it: an error keeps what has been emitted (R92). -/
inductive Outcome
  | ok (p : Progress)
  | failed (e : AsmError) (p : Progress)
  deriving DecidableEq, Repr

/-- The state before the first line: cursor 0 (D14), an empty image, an empty budget. -/
def start : Progress := ⟨0, [], 0⟩

/-- Writes bytes at the cursor; a write at or beyond `0x10000` is `OutOfRange`, the bytes before it stay (R90). -/
def emit : List Byte → Progress → Outcome
  | [], p => .ok p
  | b :: rest, p =>
    if p.cursor < 0x10000 then emit rest { p with cursor := p.cursor + 1, image := p.image.insert p.cursor b }
    else .failed .outOfRange p

/-- One instruction: its bytes at the cursor, its cycle cost onto the budget (R90, R91). -/
def emitInstr (m : OpcodeMap) (i : Instr) (p : Progress) : Outcome :=
  match emit (encodeWith m i) p with
  | .ok q => .ok { q with budget := q.budget + BitVec.ofNat 32 i.cost }
  | .failed e q => .failed e q

/-- One line; empty lines are skipped (R83). -/
def assembleLine (m : OpcodeMap) (line : List Char) (p : Progress) : Outcome :=
  match line with
  | [] => .ok p
  | _ :: _ =>
    match resolveLine line with
    | .error e => .failed e p
    | .instr i => emitInstr m i p

/-- A whole source, "strictly in source order" (R83); the first error aborts the pass (R92). -/
def assembleFrom (m : OpcodeMap) : List (List Char) → Progress → Outcome
  | [], p => .ok p
  | line :: rest, p =>
    match assembleLine m line p with
    | .ok q => assembleFrom m rest q
    | .failed e q => .failed e q

/-- The assembly pass over a source, from the start. -/
def assemble (m : OpcodeMap) (source : List (List Char)) : Outcome := assembleFrom m source start

/-- The host's inputs for a run of an assembled source (70_reset_and_hazards.md R194): the image and the
sum of the costs as `budget_in`; the unspecified values as given. A failed pass gives none: "the host
must not start the engine" (R195). -/
def runInputs (o : Outcome) (unspecified : RunInputs) : Option RunInputs :=
  match o with
  | .ok p => some { unspecified with image := p.image, budget := p.budget }
  | .failed _ _ => none

end Sys2Proof.Assembler
end

