-- ==== Sys2Proof/Machine/Cycles.lean ====
section
/-! DEFINITION. The cycle-level view of the engine (40_step_and_decode.md R115): the same machine one
byte at a time, every operand byte consumed from `MEM` in its own cycle. `step` is the normative step
(R100); this machine is here so that the two can be proved to agree. -/

namespace Sys2Proof.Machine

/-- Where the engine stands inside an instruction. `pc0` is the `PC` "kept for fault entry" (R109). -/
inductive Phase
  /-- Between instructions. -/
  | boundary
  /-- The literal byte is next. -/
  | immediate (pc0 : Addr) (r : Reg)
  /-- The zero-page address byte is next. -/
  | zeroPage (pc0 : Addr) (r : Reg)
  /-- The low address byte is next. -/
  | absLow (pc0 : Addr) (r : Reg)
  /-- The high address byte is next. -/
  | absHigh (pc0 : Addr) (r : Reg) (lo : Byte)
  /-- The data byte at `ea` is next. -/
  | data (pc0 : Addr) (r : Reg) (ea : Addr)
  deriving DecidableEq, Repr

/-- The engine between two cycles. -/
structure Engine where
  phase : Phase
  core : State
  deriving DecidableEq, Repr

/-- The engine back at a boundary, in state `t`. -/
def atBoundary (t : State) : Engine := ⟨.boundary, t⟩

/-- What follows a cycle of an instruction that began at `pc0`: fault entry on a raise. -/
def CycleEnd.continue {α : Type} (c : CycleEnd α) (pc0 : Addr) (k : α → State → Engine) : Engine :=
  match c with
  | .done v t => k v t
  | .raise f t => atBoundary (t.faultEntry pc0 f)

/-- After the opcode cycle: decode, which costs no cycle (R103, R107). -/
def afterOpcode (m : OpcodeMap) (pc0 : Addr) (op : Byte) (t : State) : Engine :=
  match controlRom m op with
  | .illegal => atBoundary (t.faultEntry pc0 .illegalOpcode)
  | .unimplemented => atBoundary (t.faultEntry pc0 .unimplementedOpcode)
  | .load r .imm => ⟨.immediate pc0 r, t⟩
  | .load r .zp => ⟨.zeroPage pc0 r, t⟩
  | .load r .abs => ⟨.absLow pc0 r, t⟩

/-- One cycle, or the halt transition (R115). -/
def cycleStep (m : OpcodeMap) (e : Engine) : Engine :=
  match e.phase with
  | .boundary =>
    match e.core.run with
    | .halted => e
    | .running =>
      if e.core.budget = 0 then atBoundary e.core.halt
      else e.core.consume.continue e.core.pc (afterOpcode m e.core.pc)
  | .immediate pc0 r => e.core.consume.continue pc0 fun v t => atBoundary (t.commit r v)
  | .zeroPage pc0 r => e.core.consume.continue pc0 fun a t => ⟨.data pc0 r (zext16 a), t⟩
  | .absLow pc0 r => e.core.consume.continue pc0 fun lo t => ⟨.absHigh pc0 r lo, t⟩
  | .absHigh pc0 r lo => e.core.consume.continue pc0 fun hi t => ⟨.data pc0 r (address lo hi), t⟩
  | .data pc0 r ea => (e.core.readData ea).continue pc0 fun v t => atBoundary (t.commit r v)

/-- The engine after `n` cycles. -/
def cycles (m : OpcodeMap) : Nat → Engine → Engine
  | 0, e => e
  | n + 1, e => cycles m n (cycleStep m e)

end Sys2Proof.Machine
end

