-- ==== Sys2Proof/Machine/Run.lean ====
section
/-! DEFINITION. Runs (40_step_and_decode.md R116). -/

namespace Sys2Proof.Machine

/-- The state after `k` steps of a core with opcode map `m`; a halted core stays as it is (R101). -/
def runWith (m : OpcodeMap) : Nat → State → State
  | 0, s => s
  | k + 1, s =>
    match stepWith m s with
    | .next t => runWith m k t
    | .fault _ => s
    | .refused _ => s

/-- The final state of the run that starts at `s`: the state after as many steps as a run with this
budget can take (R116: at most `budget / 2` completed instructions, and the step that halts). -/
def finalState (m : OpcodeMap) (s : State) : State := runWith m (s.budget.toNat / 2 + 1) s

end Sys2Proof.Machine
end

