-- ==== Sys2Proof/Safety.lean ====
section
/-! DEFINITION. How a run ends, and the invariant of the states a run can reach
(10_state.md R38; 60_exceptions.md R170, R173; 70_reset_and_hazards.md R197). -/

namespace Sys2Proof.Machine

/-- The normal end of a run: `RUN = Halted` and `FAULT = None` (10_state.md R38). -/
abbrev State.NormalEnd (s : State) : Prop := s.run = .halted ∧ s.fault = none

/-- The faulted end of a run: `RUN = Halted` and `FAULT != None`, "never a correct final state of a
program" (R38; 60_exceptions.md R173). -/
abbrev State.FaultedEnd (s : State) : Prop := s.run = .halted ∧ s.fault ≠ none

/-- What holds of every state a run reaches: the memory is in canonical form; a set `FAULT` means
`Halted` (R38); a normal end has `BUDGET = 0`, the only thing that halts without a fault (R37, R102);
an underrun leaves `BUDGET = 0` and an out-of-range fault was raised by an instruction in the last
three bytes of memory (60_exceptions.md R170, table). -/
abbrev State.Inv (s : State) : Prop :=
  s.mem.wf = true ∧
  (s.fault ≠ none → s.run = .halted) ∧
  (s.NormalEnd → s.budget = 0) ∧
  (s.fault = some .budgetUnderrun → s.budget = 0) ∧
  (s.fault = some .outOfRange → 0xFFFD ≤ s.pc.toNat)

/-- Two states agree on everything that decides what a step does: `PC`, `BUDGET`, `RUN`, `FAULT`, `MEM`. The
registers, the stack pointer and the flags are left out: nothing in the core reads them
(10_state.md R22, R32, R33, R35). -/
abbrev State.SameControl (s s' : State) : Prop :=
  s.pc = s'.pc ∧ s.budget = s'.budget ∧ s.run = s'.run ∧ s.fault = s'.fault ∧ s.mem = s'.mem

/-- The state a fault leaves (60_exceptions.md R170), with the budget that is left: `PC` as at the boundary,
`RUN = Halted`, `FAULT` the kind, everything else unchanged. -/
abbrev State.faulted (s : State) (f : FaultKind) (left : Count) : State :=
  { s with budget := left, run := .halted, fault := some f }

/-- The state a completed load leaves (41_loads.md, the "net" line of R130 to R138): the byte `v` in register
`r`, `N` and `Z` of that byte, `PC` past the instruction, `BUDGET` less its cost, everything else unchanged. -/
abbrev State.loaded (s : State) (r : Reg) (v : Byte) (length : Addr) (cost : Count) : State :=
  { s.setReg r v with
    flags := { s.flags with n := v.getLsbD 7, z := v == 0 }
    pc := s.pc + length
    budget := s.budget - cost }

end Sys2Proof.Machine
end

