-- ==== Sys2Proof/Certificates/Slice0/Obligations.lean ====
section
/-! DEFINITION. The statements for the provers. Each is about every opcode map `m` (00_scope.md R7: "a claim
must name the parameter values it holds for"), not only the spec's default, unless it says otherwise. -/

open Sys2Proof Sys2Proof.Machine

/-! ### Encoding -/

/-- Decoding an instruction's bytes gives it back with every operand, whatever follows them (30_encoding.md R79). -/
def Obligations.DecodeOfEncodeIsTheInstruction : Prop :=
  (∀ m : OpcodeMap, m.WellFormed → ∀ (i : Instr) (rest : List Byte),
    decodeWith m (encodeWith m i ++ rest) = .ok i rest) ∧
  (∀ (i : Instr) (rest : List Byte), decode (encode i ++ rest) = .ok i rest)

/-- The other direction: bytes that decode are the encoding of what they decode to, and the rest is the rest. -/
def Obligations.EncodeOfDecodeIsTheBytes : Prop :=
  ∀ (m : OpcodeMap) (bytes : List Byte) (i : Instr) (rest : List Byte),
    decodeWith m bytes = .ok i rest → bytes = encodeWith m i ++ rest

/-- Words written out from the spec (95_test_vectors.md S2, S3, S4 and 2.3 to 2.5). The bytes other than `89` and
`AD` are the defaults of notes/assumptions/1.md. -/
def Obligations.WordsOfTheSpecDecode : Prop :=
  decode [0b10001001, 0b00001010] = .ok (.ldaImm 10) [] ∧
  decode [0b10100101, 0b00000000] = .ok (.ldaZp 0) [] ∧
  decode [0b10101101, 0b00110100, 0b00010010] = .ok (.ldaAbs 0x34 0x12) [] ∧
  decode [0b10100010, 0b11111111] = .ok (.ldxImm 0xFF) [] ∧
  decode [0b10100110, 0b00000011] = .ok (.ldxZp 3) [] ∧
  decode [0b10101110, 0b00000000, 0b00100000] = .ok (.ldxAbs 0x00 0x20) [] ∧
  decode [0b10100000, 0b00000000] = .ok (.ldyImm 0) [] ∧
  decode [0b10100100, 0b00100000] = .ok (.ldyZp 0x20) [] ∧
  decode [0b10101100, 0b00010000, 0b00000000] = .ok (.ldyAbs 0x10 0x00) []

/-- The control ROM is total: `Load` exactly for the nine bytes, each for its own row; `Unimplemented` for the other
bytes of `ASSEMBLER_OPCODES`; `Illegal` for every other byte (40_step_and_decode.md R107, R108; R79). -/
def Obligations.ControlRomLoadsExactlyNineBytes : Prop :=
  ∀ m : OpcodeMap, m.WellFormed →
    (∀ (r : Reg) (mode : Mode), controlRom m (m.opcodeFor r mode) = .load r mode) ∧
    (∀ (op : Byte) (r : Reg) (mode : Mode), controlRom m op = .load r mode → op = m.opcodeFor r mode) ∧
    (∀ op : Byte, controlRom m op = .unimplemented ↔ op ∈ m.assembler ∧ op ∉ m.executed) ∧
    (∀ op : Byte, controlRom m op = .illegal ↔ op ∉ m.assembler)

/-- Operand bytes to effective addresses: little-endian, unsigned, over all of the space and page zero
(20_memory.md R50; 30_encoding.md R76; 00_scope.md R8). -/
def Obligations.EffectiveAddressesOfOperandBytes : Prop :=
  (∀ lo hi : Byte, (address lo hi).toNat = hi.toNat * 256 + lo.toNat) ∧
  (∀ a : Byte, (zext16 a).toNat = a.toNat) ∧
  (∀ ea : Addr, ∃ lo hi : Byte, address lo hi = ea)

/-! ### The step around the instruction -/

/-- Where an instruction's bytes stand at `PC`, the step of a running core with budget is that instruction's meaning
at that same state; the step adds nothing around it (40_step_and_decode.md R109). The second clause says the same
of the decoder's answer, and the third of the core the model runs. -/
def Obligations.StepRunsTheDecodedInstruction : Prop :=
  (∀ m : OpcodeMap, m.WellFormed → ∀ (i : Instr) (s : State), s.run = .running → s.budget ≠ 0 →
    s.pc.toNat + i.length ≤ 0x10000 →
    (∀ k, k < i.length → (encodeWith m i)[k]? = some (s.mem.lookup (s.pc.toNat + k))) →
    stepWith m s = exec i s) ∧
  (∀ (m : OpcodeMap) (i : Instr) (rest : List Byte) (s : State), s.run = .running → s.budget ≠ 0 →
    decodeWith m s.window = .ok i rest → stepWith m s = exec i s) ∧
  (∀ (i : Instr) (rest : List Byte) (s : State), s.run = .running → s.budget ≠ 0 →
    decode s.window = .ok i rest → step s = exec i s)

/-- The halt test (R102): a running core with `BUDGET = 0` halts, and nothing else changes, whatever the bytes at
`PC`; and only this halts a core without a fault. -/
def Obligations.EmptyBudgetHaltsAtTheBoundary : Prop :=
  ∀ (m : OpcodeMap) (s : State), s.run = .running →
    (s.budget = 0 → stepWith m s = .next { s with run := .halted }) ∧
    (∀ t, stepWith m s = .next t → t.run = .halted → t.fault = none → s.budget = 0)

/-- A halted core stays as it is, for any number of steps (R101; R181; that its step answers the same state is the
model's reading, notes/assumptions/6.md). -/
def Obligations.HaltedCoreStaysAsItIs : Prop :=
  ∀ (m : OpcodeMap) (s : State), s.run = .halted → stepWith m s = .next s ∧ ∀ k, runWith m k s = s

/-- Every byte outside the executed set faults when fetched as an opcode, below the top of memory: one cycle is
charged, `PC` stays at the byte, and the kind is `UnimplementedOpcode` for a byte of `ASSEMBLER_OPCODES` and
`IllegalOpcode` for any other (30_encoding.md R80; 60_exceptions.md R161, R162). There are 247 such bytes, and with
the default `ASSEMBLER_OPCODES` `UnimplementedOpcode` never occurs.
Derived. Choices it rests on: the kind `UnimplementedOpcode` is the spec's own (D4), and the last clause is about the
default `ASSEMBLER_OPCODES` (notes/assumptions/2.md, DESIGN CHOICE); that the next state has `PC` restored and the cycle
spent is R170's reading (D7; notes/assumptions/16.md, DESIGN CHOICE of the spec). -/
def Obligations.OtherOpcodeBytesFault : Prop :=
  (∀ (m : OpcodeMap) (s : State), m.WellFormed → s.run = .running → s.budget ≠ 0 → s.pc ≠ 0xFFFF →
    s.mem.read s.pc ∉ m.executed →
    stepWith m s =
      .next (s.faulted (if s.mem.read s.pc ∈ m.assembler then .unimplementedOpcode else .illegalOpcode)
        (s.budget - 1))) ∧
  (∀ m : OpcodeMap, m.WellFormed →
    ((List.range 256).filter fun n => BitVec.ofNat 8 n ∉ m.executed).length = 247) ∧
  (∀ op : Byte, controlRom Config.opcodes op ≠ .unimplemented)

/-! ### The instructions' own effect: completion and result -/

/-- LDA, LDX, LDY immediate complete with at least 2 cycles of budget and both bytes below `0xFFFF`; the next state
is the net effect of R130, R133, R136 and nothing else. -/
def Obligations.ImmediateLoadsComplete : Prop :=
  ∀ (v : Byte) (s : State), 2 ≤ s.budget.toNat → s.pc.toNat ≤ 0xFFFD →
    exec (.ldaImm v) s = .next { s with
      a := v, flags := { s.flags with n := v.getLsbD 7, z := v == 0 }, pc := s.pc + 2, budget := s.budget - 2 } ∧
    exec (.ldxImm v) s = .next { s with
      x := v, flags := { s.flags with n := v.getLsbD 7, z := v == 0 }, pc := s.pc + 2, budget := s.budget - 2 } ∧
    exec (.ldyImm v) s = .next { s with
      y := v, flags := { s.flags with n := v.getLsbD 7, z := v == 0 }, pc := s.pc + 2, budget := s.budget - 2 }

/-- LDA, LDX, LDY zero-page complete with at least 3 cycles of budget and both bytes below `0xFFFF`; the next state
is the net effect of R131, R134, R137 and nothing else. -/
def Obligations.ZeroPageLoadsComplete : Prop :=
  ∀ (zp8 : Byte) (s : State), 3 ≤ s.budget.toNat → s.pc.toNat ≤ 0xFFFD →
    let v := s.mem.lookup zp8.toNat
    exec (.ldaZp zp8) s = .next { s with
      a := v, flags := { s.flags with n := v.getLsbD 7, z := v == 0 }, pc := s.pc + 2, budget := s.budget - 3 } ∧
    exec (.ldxZp zp8) s = .next { s with
      x := v, flags := { s.flags with n := v.getLsbD 7, z := v == 0 }, pc := s.pc + 2, budget := s.budget - 3 } ∧
    exec (.ldyZp zp8) s = .next { s with
      y := v, flags := { s.flags with n := v.getLsbD 7, z := v == 0 }, pc := s.pc + 2, budget := s.budget - 3 }

/-- LDA, LDX, LDY absolute complete with at least 4 cycles of budget and all three bytes below `0xFFFF`, at any
effective address; the next state is the net effect of R132, R135, R138 and nothing else. -/
def Obligations.AbsoluteLoadsComplete : Prop :=
  ∀ (lo hi : Byte) (s : State), 4 ≤ s.budget.toNat → s.pc.toNat ≤ 0xFFFC →
    let v := s.mem.lookup (hi.toNat * 256 + lo.toNat)
    exec (.ldaAbs lo hi) s = .next { s with
      a := v, flags := { s.flags with n := v.getLsbD 7, z := v == 0 }, pc := s.pc + 3, budget := s.budget - 4 } ∧
    exec (.ldxAbs lo hi) s = .next { s with
      x := v, flags := { s.flags with n := v.getLsbD 7, z := v == 0 }, pc := s.pc + 3, budget := s.budget - 4 } ∧
    exec (.ldyAbs lo hi) s = .next { s with
      y := v, flags := { s.flags with n := v.getLsbD 7, z := v == 0 }, pc := s.pc + 3, budget := s.budget - 4 }

/-- R130, R133, R136 as steps of the core: encoding, net effect on the bytes in memory, and each fault with the state
it leaves.
Derived. The default opcode bytes of LDX and LDY are notes/assumptions/1.md (PRESUMED). Which fault is reported at
`0xFFFE` and `0xFFFF`, where R130's two fault sentences overlap, is R168's order (notes/assumptions/11.md, DEDUCED).
`PC` and `BUDGET` after a fault are R170's reading (D7; notes/assumptions/16.md, DESIGN CHOICE of the spec), on which
a claim about a program should not rest (93_implementation_defined.md U11). -/
def Obligations.ImmediateLoadSteps : Prop :=
  ldaImmOpcode = 0x89 ∧ Config.opcodes.ldxImm = 0xA2 ∧ Config.opcodes.ldyImm = 0xA0 ∧
  (∀ (r : Reg) (v : Byte), (Instr.immediate r v).dest = r ∧ (Instr.immediate r v).length = 2 ∧
    (Instr.immediate r v).cost = 2) ∧
  ∀ (m : OpcodeMap) (r : Reg) (s : State), m.WellFormed → s.run = .running →
    s.mem.read s.pc = m.opcodeFor r .imm →
    (2 ≤ s.budget.toNat → s.pc.toNat ≤ 0xFFFD →
      stepWith m s = .next (s.loaded r (s.mem.read (s.pc + 1)) 2 2)) ∧
    (s.budget = 1 → s.pc ≠ 0xFFFF → stepWith m s = .next (s.faulted .budgetUnderrun 0)) ∧
    (2 ≤ s.budget.toNat → s.pc = 0xFFFE → stepWith m s = .next (s.faulted .outOfRange (s.budget - 2))) ∧
    (1 ≤ s.budget.toNat → s.pc = 0xFFFF → stepWith m s = .next (s.faulted .outOfRange (s.budget - 1)))

/-- R131, R134, R137 as steps of the core: encoding, net effect on the bytes in memory, and each fault with the state
it leaves.
Derived. The default opcode bytes of LDA, LDX and LDY are notes/assumptions/1.md (PRESUMED). Which fault is reported at the
top of memory, where R131's two fault sentences overlap, is R168's order (notes/assumptions/11.md, DEDUCED). `PC` and
`BUDGET` after a fault are R170's reading (D7; notes/assumptions/16.md, DESIGN CHOICE of the spec), on which a claim
about a program should not rest (93_implementation_defined.md U11). -/
def Obligations.ZeroPageLoadSteps : Prop :=
  Config.opcodes.ldaZp = 0xA5 ∧ Config.opcodes.ldxZp = 0xA6 ∧ Config.opcodes.ldyZp = 0xA4 ∧
  (∀ (r : Reg) (a : Byte), (Instr.zeroPage r a).dest = r ∧ (Instr.zeroPage r a).length = 2 ∧
    (Instr.zeroPage r a).cost = 3) ∧
  ∀ (m : OpcodeMap) (r : Reg) (s : State), m.WellFormed → s.run = .running →
    s.mem.read s.pc = m.opcodeFor r .zp →
    (3 ≤ s.budget.toNat → s.pc.toNat ≤ 0xFFFD →
      stepWith m s = .next (s.loaded r (s.mem.lookup (s.mem.read (s.pc + 1)).toNat) 2 3)) ∧
    (s.budget = 1 → s.pc ≠ 0xFFFF → stepWith m s = .next (s.faulted .budgetUnderrun 0)) ∧
    (s.budget = 2 → s.pc.toNat ≤ 0xFFFD → stepWith m s = .next (s.faulted .budgetUnderrun 0)) ∧
    (2 ≤ s.budget.toNat → s.pc = 0xFFFE → stepWith m s = .next (s.faulted .outOfRange (s.budget - 2))) ∧
    (1 ≤ s.budget.toNat → s.pc = 0xFFFF → stepWith m s = .next (s.faulted .outOfRange (s.budget - 1)))

/-- R132, R135, R138 as steps of the core: encoding, net effect on the bytes in memory, and each fault with the state
it leaves.
Derived. The default opcode bytes of LDX and LDY are notes/assumptions/1.md (PRESUMED). Which fault is reported at the
top of memory, where R132's two fault sentences overlap, is R168's order (notes/assumptions/11.md, DEDUCED). `PC` and
`BUDGET` after a fault are R170's reading (D7; notes/assumptions/16.md, DESIGN CHOICE of the spec), on which a claim
about a program should not rest (93_implementation_defined.md U11). -/
def Obligations.AbsoluteLoadSteps : Prop :=
  ldaAbsOpcode = 0xAD ∧ Config.opcodes.ldxAbs = 0xAE ∧ Config.opcodes.ldyAbs = 0xAC ∧
  (∀ (r : Reg) (lo hi : Byte), (Instr.absolute r lo hi).dest = r ∧ (Instr.absolute r lo hi).length = 3 ∧
    (Instr.absolute r lo hi).cost = 4) ∧
  ∀ (m : OpcodeMap) (r : Reg) (s : State), m.WellFormed → s.run = .running →
    s.mem.read s.pc = m.opcodeFor r .abs →
    (4 ≤ s.budget.toNat → s.pc.toNat ≤ 0xFFFC →
      stepWith m s = .next (s.loaded r
        (s.mem.lookup ((s.mem.read (s.pc + 2)).toNat * 256 + (s.mem.read (s.pc + 1)).toNat)) 3 4)) ∧
    (s.budget = 1 → s.pc ≠ 0xFFFF → stepWith m s = .next (s.faulted .budgetUnderrun 0)) ∧
    (s.budget = 2 → s.pc.toNat ≤ 0xFFFD → stepWith m s = .next (s.faulted .budgetUnderrun 0)) ∧
    (s.budget = 3 → s.pc.toNat ≤ 0xFFFC → stepWith m s = .next (s.faulted .budgetUnderrun 0)) ∧
    (3 ≤ s.budget.toNat → s.pc = 0xFFFD → stepWith m s = .next (s.faulted .outOfRange (s.budget - 3))) ∧
    (2 ≤ s.budget.toNat → s.pc = 0xFFFE → stepWith m s = .next (s.faulted .outOfRange (s.budget - 2))) ∧
    (1 ≤ s.budget.toNat → s.pc = 0xFFFF → stepWith m s = .next (s.faulted .outOfRange (s.budget - 1)))

/-- The frame of all nine loads (10_state.md R21, R31, R32, R35; 20_memory.md R57; 40_step_and_decode.md R113): every
register but the destination, `SP`, the flags `C I D B V` and every byte of memory are as before; either the
instruction completed, and the destination, `N` and `Z` are those of the operand byte, or it faulted, and the
destination, every flag and `PC` are as before (`PC` by the spec's reading, C2; notes/assumptions/16.md). -/
def Obligations.LoadsLeaveEverythingElseUnchanged : Prop :=
  ∀ (i : Instr) (s t : State), exec i s = .next t →
    (∀ r, r ≠ i.dest → t.reg r = s.reg r) ∧
    t.sp = s.sp ∧ t.flags.c = s.flags.c ∧ t.flags.i = s.flags.i ∧ t.flags.d = s.flags.d ∧
    t.flags.b = s.flags.b ∧ t.flags.v = s.flags.v ∧
    (∀ a : Addr, t.mem.read a = s.mem.read a) ∧
    ((t.run = s.run ∧ t.fault = s.fault ∧ t.reg i.dest = operandValue s i ∧
        t.flags.n = (operandValue s i).getLsbD 7 ∧ t.flags.z = (operandValue s i == 0)) ∨
      (t.run = .halted ∧ (∃ f, t.fault = some f) ∧ t.reg i.dest = s.reg i.dest ∧ t.flags = s.flags ∧ t.pc = s.pc))

/-- An instruction completes exactly when the budget covers its cost and none of its bytes is at `0xFFFF`
(60_exceptions.md R168; 70_reset_and_hazards.md R202; 40_step_and_decode.md R114). -/
def Obligations.ExecCompletesExactlyWhenItFits : Prop :=
  ∀ (i : Instr) (s : State), s.run = .running →
    ((∃ t, exec i s = .next t ∧ t.run = .running) ↔
      i.cost ≤ s.budget.toNat ∧ s.pc.toNat + i.length ≤ 0xFFFF)

/-- R110: `N` is bit 7 of the byte and `Z` is its being zero, no other flag changes, both are never set together; and
a completed step of the core has the flags of the byte now in the destination register. -/
def Obligations.FlagsAreThoseOfTheLoadedByte : Prop :=
  (∀ (f : Flags) (v : Byte),
    setNZ f v = { f with n := v.getLsbD 7, z := v == 0 } ∧
    (v = 0 → (setNZ f v).n = false ∧ (setNZ f v).z = true) ∧
    (1 ≤ v.toNat → v.toNat ≤ 0x7F → (setNZ f v).n = false ∧ (setNZ f v).z = false) ∧
    (0x80 ≤ v.toNat → (setNZ f v).n = true ∧ (setNZ f v).z = false)) ∧
  (∀ (m : OpcodeMap) (s t : State), stepWith m s = .next t → t.run = .running →
    ∃ i rest, decodeWith m s.window = .ok i rest ∧ t.flags = setNZ s.flags (t.reg i.dest))

/-- R21: a register changes only in a step that completes a load of that register; it then holds, unmodified, one
byte of memory, and `N` and `Z` are those of it. Every completed step writes its destination register so, whatever it
held, and every other step writes no register and no flag. -/
def Obligations.RegistersAreWrittenByTheirLoadsOnly : Prop :=
  (∀ (m : OpcodeMap) (s t : State) (r : Reg), stepWith m s = .next t → t.reg r ≠ s.reg r →
    ∃ i rest, decodeWith m s.window = .ok i rest ∧ i.dest = r ∧ t.reg r = operandValue s i ∧
      (∃ a : Addr, t.reg r = s.mem.read a) ∧
      t.flags = { s.flags with n := (t.reg r).getLsbD 7, z := t.reg r == 0 }) ∧
  (∀ (m : OpcodeMap) (s t : State), stepWith m s = .next t →
    (t.run = .running → ∃ i rest, decodeWith m s.window = .ok i rest ∧ t.reg i.dest = operandValue s i ∧
      (∃ a : Addr, t.reg i.dest = s.mem.read a) ∧
      t.flags = { s.flags with n := (t.reg i.dest).getLsbD 7, z := t.reg i.dest == 0 }) ∧
    (t.run = .halted → (∀ r, t.reg r = s.reg r) ∧ t.flags = s.flags))

/-! ### Faults -/

/-- R168, row by row, each with the state R170 gives: the first fault met in the order of the cycles is the one
reported. The last row covers every load that fits below the top. With no budget there is no fault.
Derived. That R168 decides at the top of memory, and not R163, is notes/assumptions/11.md (DEDUCED); that the kind
`UnimplementedOpcode` exists is the spec's own (D4); the full next states, with `PC` restored and the `BUDGET` left,
are R170's reading (D7; notes/assumptions/16.md, DESIGN CHOICE of the spec; 93_implementation_defined.md U11). -/
def Obligations.FirstFaultInCycleOrderIsReported : Prop :=
  ∀ (m : OpcodeMap) (s : State), m.WellFormed → s.run = .running →
    (s.budget = 0 → stepWith m s = .next { s with run := .halted }) ∧
    (s.budget ≠ 0 → s.pc = 0xFFFF → stepWith m s = .next (s.faulted .outOfRange (s.budget - 1))) ∧
    (s.budget ≠ 0 → s.pc ≠ 0xFFFF → s.mem.read s.pc ∉ m.executed →
      (s.mem.read s.pc ∈ m.assembler → stepWith m s = .next (s.faulted .unimplementedOpcode (s.budget - 1))) ∧
      (s.mem.read s.pc ∉ m.assembler → stepWith m s = .next (s.faulted .illegalOpcode (s.budget - 1)))) ∧
    (∀ r mode, s.mem.read s.pc = m.opcodeFor r mode →
      (s.pc = 0xFFFE → s.budget = 1 → stepWith m s = .next (s.faulted .budgetUnderrun 0)) ∧
      (s.pc = 0xFFFE → 2 ≤ s.budget.toNat → stepWith m s = .next (s.faulted .outOfRange (s.budget - 2))) ∧
      (s.pc = 0xFFFD → mode = .abs → s.budget = 2 → stepWith m s = .next (s.faulted .budgetUnderrun 0)) ∧
      (s.pc = 0xFFFD → mode = .abs → 3 ≤ s.budget.toNat →
        stepWith m s = .next (s.faulted .outOfRange (s.budget - 3))) ∧
      (s.pc.toNat + mode.operandBytes ≤ 0xFFFE → s.budget ≠ 0 → s.budget.toNat < mode.cost →
        stepWith m s = .next (s.faulted .budgetUnderrun 0)))

/-- R170: whatever faults, the state after is the boundary state with `RUN`, `FAULT` and `BUDGET` changed, so
`PC` is at the faulting instruction and no register, flag or byte of memory is written; and `BUDGET` is what the
table of R170 gives for the kind.
Derived. The restored `PC` and the `BUDGET` left are the spec's own reading of the source (90_conflicts.md C2; D7;
notes/assumptions/16.md, DESIGN CHOICE of the spec); of `BUDGET` after a fault "a claim should not rest on it"
(93_implementation_defined.md U11). -/
def Obligations.FaultEntryIsPrecise : Prop :=
  ∀ (m : OpcodeMap) (s t : State) (f : FaultKind), s.run = .running → s.fault = none →
    stepWith m s = .next t → t.fault = some f →
    t = s.faulted f t.budget ∧
    (f = .illegalOpcode ∨ f = .unimplementedOpcode → t.budget = s.budget - 1 ∧ s.budget ≠ 0) ∧
    (f = .budgetUnderrun → t.budget = 0) ∧
    (f = .outOfRange → t.budget.toNat + (0x10000 - s.pc.toNat) = s.budget.toNat ∧
      (s.pc = 0xFFFD ∨ s.pc = 0xFFFE ∨ s.pc = 0xFFFF))

/-- R163, for an instruction with no byte at `0xFFFF` (at the top R168 gives `OutOfRange` its place,
notes/assumptions/11.md): `BudgetUnderrun` occurs exactly when `1 <= BUDGET < cost`. -/
def Obligations.UnderrunExactlyWhenBudgetIsShort : Prop :=
  ∀ (m : OpcodeMap) (s : State) (i : Instr) (rest : List Byte), s.run = .running → s.fault = none →
    decodeWith m s.window = .ok i rest → s.pc.toNat + i.length ≤ 0xFFFF →
    ((∃ t, stepWith m s = .next t ∧ t.fault = some .budgetUnderrun) ↔
      1 ≤ s.budget.toNat ∧ s.budget.toNat < i.cost)

/-- R169: at most one fault occurs in a run. Once `FAULT` is set, in any state with the invariant, the core stays as
it is for ever. -/
def Obligations.AtMostOneFaultInARun : Prop :=
  (∀ (m : OpcodeMap) (s : State), s.Inv → s.fault ≠ none → ∀ k, runWith m k s = s) ∧
  (∀ (m : OpcodeMap) (r : RunInputs) (j k : Nat), j ≤ k →
    (runWith m j (State.resetWith r)).fault ≠ none →
    runWith m k (State.resetWith r) = runWith m j (State.resetWith r))

/-! ### Whole-machine rules -/

/-- R114: a completed instruction decreases `BUDGET` by exactly its cost and advances `PC` by exactly its length. -/
def Obligations.CompletedStepCostsExactly : Prop :=
  ∀ (m : OpcodeMap) (s t : State), stepWith m s = .next t → t.run = .running →
    ∃ i rest, decodeWith m s.window = .ok i rest ∧ t.budget.toNat + i.cost = s.budget.toNat ∧
      t.pc.toNat = s.pc.toNat + i.length

/-- R36: `BUDGET` never increases and never wraps; a running core with budget left uses between one and four cycles
in a step. -/
def Obligations.BudgetOnlyCountsDown : Prop :=
  ∀ (m : OpcodeMap) (s t : State), stepWith m s = .next t →
    t.budget.toNat ≤ s.budget.toNat ∧ s.budget.toNat ≤ t.budget.toNat + 4 ∧
    (s.run = .running → s.budget ≠ 0 → t.budget.toNat < s.budget.toNat)

/-- R26, R27, R150: a step leaves `PC` where it is or moves it two or three bytes forward, and `PC` never wraps
(no wrap: D6, notes/assumptions/10.md; `PC` restored by a fault: C2, notes/assumptions/16.md). -/
def Obligations.ProgramCounterOnlyMovesForward : Prop :=
  ∀ (m : OpcodeMap) (s t : State), stepWith m s = .next t →
    t.pc = s.pc ∨ (t.run = .running ∧ (t.pc.toNat = s.pc.toNat + 2 ∨ t.pc.toNat = s.pc.toNat + 3))

/-- R57: no step writes memory; at any point of a run from reset every byte is that of `image_in`. -/
def Obligations.MemoryIsNeverWritten : Prop :=
  (∀ (m : OpcodeMap) (s t : State), stepWith m s = .next t → t.mem = s.mem) ∧
  (∀ (m : OpcodeMap) (r : RunInputs) (k : Nat) (a : Addr),
    (runWith m k (State.resetWith r)).mem.read a = r.image.read a)

/-- R32, R35: nothing writes `C`, `I`, `D`, `B`, `V` or `SP`; they keep their value for the whole of any run. -/
def Obligations.InertStateIsNeverWritten : Prop :=
  ∀ (m : OpcodeMap) (k : Nat) (s : State),
    (runWith m k s).sp = s.sp ∧ (runWith m k s).flags.c = s.flags.c ∧ (runWith m k s).flags.i = s.flags.i ∧
    (runWith m k s).flags.d = s.flags.d ∧ (runWith m k s).flags.b = s.flags.b ∧ (runWith m k s).flags.v = s.flags.v

/-- R22, R33, R117: no step reads a register, a flag or `SP`. Two runs that start with the same `PC`, `BUDGET`, `RUN`,
`FAULT` and `MEM` keep them the same for ever, and each register, `N` and `Z` is then either the same in both or
as it was at the start of each: the arbitrary reset values influence nothing. -/
def Obligations.RegistersAndFlagsInfluenceNothing : Prop :=
  ∀ (m : OpcodeMap) (k : Nat) (s s' : State), s.SameControl s' →
    (runWith m k s).SameControl (runWith m k s') ∧
    (∀ r, (runWith m k s).reg r = (runWith m k s').reg r ∨
      ((runWith m k s).reg r = s.reg r ∧ (runWith m k s').reg r = s'.reg r)) ∧
    (((runWith m k s).flags.n = (runWith m k s').flags.n ∧ (runWith m k s).flags.z = (runWith m k s').flags.z) ∨
      ((runWith m k s).flags = s.flags ∧ (runWith m k s').flags = s'.flags))

/-- R116: every run ends, from any state. Each instruction step decreases `BUDGET`, which only the cycles spent take
from: a run has at most `BUDGET` cycles. A run has at most `BUDGET / 2` completed instructions (after `k` steps that
leave the core running, at least `2 * k` cycles are spent), it is halted one step later at the latest, and then it
stays in its final state. -/
def Obligations.EveryRunEnds : Prop :=
  ∀ (m : OpcodeMap) (s : State),
    (∀ k, (runWith m k s).run = .running → (runWith m k s).budget.toNat + 2 * k ≤ s.budget.toNat) ∧
    (finalState m s).run = .halted ∧
    (∀ k, s.budget.toNat / 2 + 1 ≤ k → runWith m k s = finalState m s) ∧
    (∀ t, s.run = .running → s.budget ≠ 0 → stepWith m s = .next t → t.budget.toNat < s.budget.toNat) ∧
    (∀ k, (runWith m k s).budget.toNat ≤ s.budget.toNat)

/-- The invariant of Safety.lean is kept by every step (10_state.md R37, R38, R39; 60_exceptions.md R170), at any
opcode map and so in the core the model runs. Its clauses on `BUDGET` and `PC` after a fault are R170's reading
(notes/assumptions/16.md), and its memory form is the model's (notes/assumptions/17.md). -/
def Obligations.StepKeepsTheInvariant : Prop :=
  (∀ (m : OpcodeMap) (s t : State), s.Inv → stepWith m s = .next t → t.Inv) ∧
  (∀ s t : State, s.Inv → step s = .next t → t.Inv)

/-- The invariant holds right after reset, for every well-formed input of a run. -/
def Obligations.ResetMeetsTheInvariant : Prop :=
  (∀ r : RunInputs, r.WellFormed → (State.resetWith r).Inv) ∧ State.reset.Inv

/-- R190: what reset leaves. Every register and flag the spec leaves unspecified can have any value, and a byte of the
image nothing was written to is `0x00`. -/
def Obligations.ResetState : Prop :=
  (∀ r : RunInputs, (State.resetWith r).pc = 0 ∧ (State.resetWith r).run = .running ∧
    (State.resetWith r).budget = r.budget ∧ (State.resetWith r).fault = none ∧
    ∀ a : Addr, (State.resetWith r).mem.read a = r.image.read a) ∧
  (∀ (image : Memory) (budget : Count) (a x y : Byte) (sp : Addr) (flags : Flags), ∃ r : RunInputs,
    State.resetWith r = ⟨a, x, y, 0, sp, flags, budget, .running, none, image⟩) ∧
  (∀ (writes : List (Addr × Byte)) (a : Addr), (∀ w ∈ writes, w.1 ≠ a) → (Memory.load writes).read a = 0)

/-- The image the host loads holds, at every address, the last byte written there (70_reset_and_hazards.md R193, R194;
00_scope.md R10). -/
def Obligations.LoadedImageHoldsTheLastWrite : Prop :=
  ∀ (before after : List (Addr × Byte)) (a : Addr) (v : Byte), (∀ w ∈ after, w.1 ≠ a) →
    (Memory.load (before ++ (a, v) :: after)).read a = v

/-- Memories in canonical form that read the same at every address are the same data (10_state.md R39;
notes/assumptions/17.md). -/
def Obligations.CanonicalMemoriesAreEqualWhenTheyReadTheSame : Prop :=
  ∀ mem mem' : Memory, mem.wf = true → mem'.wf = true → (∀ a : Addr, mem.read a = mem'.read a) → mem = mem'

/-- R115: the cycle-level engine, which consumes every operand byte from memory in a cycle of its own, is in the
step's state at the step's boundary, one to four cycles later and not before. -/
def Obligations.CycleLevelEngineAgreesWithTheStep : Prop :=
  ∀ (m : OpcodeMap) (s t : State), stepWith m s = .next t →
    ∃ k, 1 ≤ k ∧ k ≤ 4 ∧ cycles m k (atBoundary s) = atBoundary t ∧
      ∀ j, 1 ≤ j → j < k → (cycles m j (atBoundary s)).phase ≠ .boundary

/-- The host's load of a table word (notes/assumptions/13.md): the very next step runs exactly the instruction the
decoder reads from the word, and it completes, wherever the longest instruction fits. -/
def Obligations.PlacedWordRunsNext : Prop :=
  ∀ (s : State) (nbits w : Nat) (i : Instr), s.mem.wf = true → s.pc.toNat ≤ 0xFFFC →
    decodeTableWord nbits w = some i →
    step (s.withFetchWord nbits w) = exec i (s.withFetchWord nbits w) ∧
    ∃ t, step (s.withFetchWord nbits w) = .next t ∧ t.run = .running ∧ t.fault = none ∧
      t.reg i.dest = operandValue (s.withFetchWord nbits w) i

/-! ### The assembler (host software, 30_encoding.md section 6) -/

/-- R87: a memory reference is zero-page or absolute by value, and above `0xFFFF` out of range; the bytes emitted are
the value's, low byte first. -/
def Obligations.MemoryReferencesAreClassifiedByValue : Prop :=
  ∀ (m : OpcodeMap) (r : Reg) (v : Nat),
    (v < 0x100 → ∃ i, Assembler.memoryReference r v = .instr i ∧
      encodeWith m i = [m.opcodeFor r .zp, BitVec.ofNat 8 v]) ∧
    (0x100 ≤ v → v < 0x10000 → ∃ i, Assembler.memoryReference r v = .instr i ∧
      ∃ lo hi : Byte, encodeWith m i = [m.opcodeFor r .abs, lo, hi] ∧ (address lo hi).toNat = v) ∧
    (0x10000 ≤ v → Assembler.memoryReference r v = .error .outOfRange)

/-- R90, R91: a line that assembles puts its instruction's bytes at the cursor and nothing elsewhere, advances the
cursor by the length and adds the cost to the budget; the bytes decode to that instruction. -/
def Obligations.AssembledLineIsItsInstruction : Prop :=
  ∀ (m : OpcodeMap) (line : List Char) (p q : Assembler.Progress) (i : Instr), m.WellFormed → p.image.wf = true →
    Assembler.resolveLine line = .instr i → Assembler.assembleLine m line p = .ok q →
    q.cursor = p.cursor + i.length ∧ q.budget = p.budget + BitVec.ofNat 32 i.cost ∧ q.image.wf = true ∧
    (∀ k, k < i.length → (encodeWith m i)[k]? = some (q.image.lookup (p.cursor + k))) ∧
    (∀ a, a < p.cursor ∨ q.cursor ≤ a → q.image.lookup a = p.image.lookup a) ∧
    ∃ rest, decodeWith m (q.image.bytesFrom 3 p.cursor) = .ok i rest

/-- The toolchain's invariant (R114): a line runs at the cost recorded for it when it was assembled. A core at the
line's address, in the image as it was after the line, completes it in one step, ends where the assembler's cursor
stood, and has spent what the assembler added to the budget. -/
def Obligations.AssembledLineRunsAtItsRecordedCost : Prop :=
  ∀ (m : OpcodeMap) (line : List Char) (p q : Assembler.Progress) (i : Instr) (s : State), m.WellFormed →
    p.image.wf = true → Assembler.resolveLine line = .instr i → Assembler.assembleLine m line p = .ok q →
    q.cursor ≤ 0xFFFF → s.run = .running → s.mem = q.image → s.pc.toNat = p.cursor → i.cost ≤ s.budget.toNat →
    ∃ t, stepWith m s = .next t ∧ t.run = .running ∧ t.pc.toNat = q.cursor ∧
      s.budget - t.budget = q.budget - p.budget ∧ t.reg i.dest = operandValue s i
end

