-- ==== Sys2Proof/Laws/State.lean ====
section
/-! SUPPORT. One lemma per field per named update of the state, true by `rfl`, so that no later proof
unfolds an update. -/

namespace Sys2Proof.Machine

/-! ### `setNZ` -/

@[simp] theorem setNZ_n (f : Flags) (v : Byte) : (setNZ f v).n = negative v := rfl
@[simp] theorem setNZ_z (f : Flags) (v : Byte) : (setNZ f v).z = zero v := rfl
@[simp] theorem setNZ_c (f : Flags) (v : Byte) : (setNZ f v).c = f.c := rfl
@[simp] theorem setNZ_i (f : Flags) (v : Byte) : (setNZ f v).i = f.i := rfl
@[simp] theorem setNZ_d (f : Flags) (v : Byte) : (setNZ f v).d = f.d := rfl
@[simp] theorem setNZ_b (f : Flags) (v : Byte) : (setNZ f v).b = f.b := rfl
@[simp] theorem setNZ_v (f : Flags) (v : Byte) : (setNZ f v).v = f.v := rfl

/-! ### `setReg` -/

@[simp] theorem setReg_pc (s : State) (r : Reg) (v : Byte) : (s.setReg r v).pc = s.pc := by cases r <;> rfl
@[simp] theorem setReg_sp (s : State) (r : Reg) (v : Byte) : (s.setReg r v).sp = s.sp := by cases r <;> rfl
@[simp] theorem setReg_flags (s : State) (r : Reg) (v : Byte) : (s.setReg r v).flags = s.flags := by cases r <;> rfl
@[simp] theorem setReg_budget (s : State) (r : Reg) (v : Byte) : (s.setReg r v).budget = s.budget := by cases r <;> rfl
@[simp] theorem setReg_run (s : State) (r : Reg) (v : Byte) : (s.setReg r v).run = s.run := by cases r <;> rfl
@[simp] theorem setReg_fault (s : State) (r : Reg) (v : Byte) : (s.setReg r v).fault = s.fault := by cases r <;> rfl
@[simp] theorem setReg_mem (s : State) (r : Reg) (v : Byte) : (s.setReg r v).mem = s.mem := by cases r <;> rfl
@[simp] theorem reg_setReg_same (s : State) (r : Reg) (v : Byte) : (s.setReg r v).reg r = v := by cases r <;> rfl
theorem reg_setReg_other (s : State) {r r' : Reg} (v : Byte) (h : r' ≠ r) : (s.setReg r v).reg r' = s.reg r' := by
  cases r <;> cases r' <;> first | rfl | exact absurd rfl h

/-! ### `commit` -/

@[simp] theorem commit_pc (s : State) (r : Reg) (v : Byte) : (s.commit r v).pc = s.pc := by cases r <;> rfl
@[simp] theorem commit_sp (s : State) (r : Reg) (v : Byte) : (s.commit r v).sp = s.sp := by cases r <;> rfl
@[simp] theorem commit_flags (s : State) (r : Reg) (v : Byte) : (s.commit r v).flags = setNZ s.flags v := rfl
@[simp] theorem commit_budget (s : State) (r : Reg) (v : Byte) : (s.commit r v).budget = s.budget := by cases r <;> rfl
@[simp] theorem commit_run (s : State) (r : Reg) (v : Byte) : (s.commit r v).run = s.run := by cases r <;> rfl
@[simp] theorem commit_fault (s : State) (r : Reg) (v : Byte) : (s.commit r v).fault = s.fault := by cases r <;> rfl
@[simp] theorem commit_mem (s : State) (r : Reg) (v : Byte) : (s.commit r v).mem = s.mem := by cases r <;> rfl
@[simp] theorem reg_commit_same (s : State) (r : Reg) (v : Byte) : (s.commit r v).reg r = v := by cases r <;> rfl
theorem reg_commit_other (s : State) {r r' : Reg} (v : Byte) (h : r' ≠ r) : (s.commit r v).reg r' = s.reg r' := by
  cases r <;> cases r' <;> first | rfl | exact absurd rfl h

/-! ### `halt` -/

@[simp] theorem halt_run (s : State) : s.halt.run = .halted := rfl
@[simp] theorem halt_pc (s : State) : s.halt.pc = s.pc := rfl
@[simp] theorem halt_sp (s : State) : s.halt.sp = s.sp := rfl
@[simp] theorem halt_flags (s : State) : s.halt.flags = s.flags := rfl
@[simp] theorem halt_budget (s : State) : s.halt.budget = s.budget := rfl
@[simp] theorem halt_fault (s : State) : s.halt.fault = s.fault := rfl
@[simp] theorem halt_mem (s : State) : s.halt.mem = s.mem := rfl
@[simp] theorem halt_reg (s : State) (r : Reg) : s.halt.reg r = s.reg r := by cases r <;> rfl

/-! ### `faultEntry` -/

@[simp] theorem faultEntry_run (s : State) (p : Addr) (f : FaultKind) : (s.faultEntry p f).run = .halted := rfl
@[simp] theorem faultEntry_pc (s : State) (p : Addr) (f : FaultKind) : (s.faultEntry p f).pc = p := rfl
@[simp] theorem faultEntry_fault (s : State) (p : Addr) (f : FaultKind) : (s.faultEntry p f).fault = some f := rfl
@[simp] theorem faultEntry_sp (s : State) (p : Addr) (f : FaultKind) : (s.faultEntry p f).sp = s.sp := rfl
@[simp] theorem faultEntry_flags (s : State) (p : Addr) (f : FaultKind) : (s.faultEntry p f).flags = s.flags := rfl
@[simp] theorem faultEntry_budget (s : State) (p : Addr) (f : FaultKind) : (s.faultEntry p f).budget = s.budget := rfl
@[simp] theorem faultEntry_mem (s : State) (p : Addr) (f : FaultKind) : (s.faultEntry p f).mem = s.mem := rfl
@[simp] theorem faultEntry_reg (s : State) (p : Addr) (f : FaultKind) (r : Reg) : (s.faultEntry p f).reg r = s.reg r := by
  cases r <;> rfl

/-! ### `resetWith` -/

@[simp] theorem resetWith_pc (r : RunInputs) : (State.resetWith r).pc = 0 := rfl
@[simp] theorem resetWith_run (r : RunInputs) : (State.resetWith r).run = .running := rfl
@[simp] theorem resetWith_fault (r : RunInputs) : (State.resetWith r).fault = none := rfl
@[simp] theorem resetWith_budget (r : RunInputs) : (State.resetWith r).budget = r.budget := rfl
@[simp] theorem resetWith_mem (r : RunInputs) : (State.resetWith r).mem = r.image := rfl
@[simp] theorem resetWith_sp (r : RunInputs) : (State.resetWith r).sp = r.sp := rfl
@[simp] theorem resetWith_flags (r : RunInputs) : (State.resetWith r).flags = r.flags := rfl

/-! ### `placeWord`: what the host's load of a word leaves alone -/

@[simp] theorem placeWord_pc (s : State) (nbits w : Nat) : (s.placeWord nbits w).pc = s.pc := rfl
@[simp] theorem placeWord_sp (s : State) (nbits w : Nat) : (s.placeWord nbits w).sp = s.sp := rfl
@[simp] theorem placeWord_flags (s : State) (nbits w : Nat) : (s.placeWord nbits w).flags = s.flags := rfl
@[simp] theorem placeWord_run (s : State) (nbits w : Nat) : (s.placeWord nbits w).run = .running := rfl
@[simp] theorem placeWord_fault (s : State) (nbits w : Nat) : (s.placeWord nbits w).fault = none := rfl
@[simp] theorem placeWord_reg (s : State) (nbits w : Nat) (r : Reg) : (s.placeWord nbits w).reg r = s.reg r := by
  cases r <;> rfl

end Sys2Proof.Machine
end

