-- ==== Sys2Proof/Laws/Cycle.lean ====
section
/-! SUPPORT. What the cycle primitives and the operand operations can do: one lemma each. -/

namespace Sys2Proof.Machine

variable {α β : Type}

@[simp] theorem andThen_done (v : α) (s : State) (k : α → State → CycleEnd β) : (CycleEnd.done v s).andThen k = k v s := rfl
@[simp] theorem andThen_raise (f : FaultKind) (s : State) (k : α → State → CycleEnd β) :
    (CycleEnd.raise f s).andThen k = .raise f s := rfl
@[simp] theorem conclude_done (s t : State) : s.conclude (.done () t) = t := rfl
@[simp] theorem conclude_raise (s t : State) (f : FaultKind) : s.conclude (.raise f t) = t.faultEntry s.pc f := rfl

@[simp] theorem incPC_top : incPC 0xFFFF = none := rfl
theorem incPC_of_ne {p : Addr} (h : p ≠ 0xFFFF) : incPC p = some (p + 1) := if_neg h

/-- `Consume` with no budget. -/
theorem consume_underrun {s : State} (h : s.budget = 0) : s.consume = .raise .budgetUnderrun s := if_pos h

/-- `Consume` at the top of memory. -/
theorem consume_top {s : State} (h : s.budget ≠ 0) (hp : s.pc = 0xFFFF) :
    s.consume = .raise .outOfRange { s with budget := s.budget - 1 } := by
  rw [State.consume, if_neg h]
  show (match incPC s.pc with | none => _ | some p => _) = _
  rw [hp]
  rfl

/-- `Consume` everywhere else. -/
theorem consume_done {s : State} (h : s.budget ≠ 0) (hp : s.pc ≠ 0xFFFF) :
    s.consume = .done (s.mem.read s.pc) { s with budget := s.budget - 1, pc := s.pc + 1 } := by
  rw [State.consume, if_neg h]
  show (match incPC s.pc with | none => _ | some p => _) = _
  rw [incPC_of_ne hp]

/-- Everything `Consume` can do. -/
theorem consume_cases (s : State) :
    (s.budget = 0 ∧ s.consume = .raise .budgetUnderrun s) ∨
    (s.budget ≠ 0 ∧ s.pc = 0xFFFF ∧ s.consume = .raise .outOfRange { s with budget := s.budget - 1 }) ∨
    (s.budget ≠ 0 ∧ s.pc ≠ 0xFFFF ∧
      s.consume = .done (s.mem.read s.pc) { s with budget := s.budget - 1, pc := s.pc + 1 }) := by
  by_cases h : s.budget = 0
  · exact .inl ⟨h, consume_underrun h⟩
  · by_cases hp : s.pc = 0xFFFF
    · exact .inr (.inl ⟨h, hp, consume_top h hp⟩)
    · exact .inr (.inr ⟨h, hp, consume_done h hp⟩)

/-- Everything `ReadData` can do. -/
theorem readData_cases (s : State) (addr : Addr) :
    (s.budget = 0 ∧ s.readData addr = .raise .budgetUnderrun s) ∨
    (s.budget ≠ 0 ∧ s.readData addr = .done (s.mem.read addr) { s with budget := s.budget - 1 }) := by
  by_cases h : s.budget = 0
  · exact .inl ⟨h, if_pos h⟩
  · exact .inr ⟨h, if_neg h⟩

/-- The address a cycle is at after a consumed byte: no wrap. -/
theorem pc_succ_toNat {p : Addr} (h : p ≠ 0xFFFF) : (p + 1).toNat = p.toNat + 1 := by
  have : p.toNat ≠ 65535 := fun hp => h (BitVec.eq_of_toNat_eq hp)
  have := p.isLt
  simp only [BitVec.toNat_add, BitVec.reduceToNat]
  omega

/-- The budget after a cycle: no wrap. -/
theorem budget_pred_toNat {b : Count} (h : b ≠ 0) : (b - 1).toNat = b.toNat - 1 := by
  have : b.toNat ≠ 0 := fun hb => h (BitVec.eq_of_toNat_eq hb)
  have := b.isLt
  simp only [BitVec.toNat_sub, BitVec.reduceToNat]
  omega

theorem budget_ne_zero {b : Count} : b ≠ 0 ↔ 1 ≤ b.toNat := by
  constructor
  · intro h
    have : b.toNat ≠ 0 := fun hb => h (BitVec.eq_of_toNat_eq hb)
    omega
  · rintro h rfl
    exact absurd h (by decide)

theorem budget_eq_zero {b : Count} : b = 0 ↔ b.toNat = 0 :=
  ⟨fun h => by rw [h]; rfl, fun h => BitVec.eq_of_toNat_eq h⟩

theorem pc_eq_top {p : Addr} : p = 0xFFFF ↔ p.toNat = 65535 :=
  ⟨fun h => by rw [h]; rfl, fun h => BitVec.eq_of_toNat_eq h⟩

theorem readData_done {s : State} (h : s.budget ≠ 0) (addr : Addr) :
    s.readData addr = .done (s.mem.read addr) { s with budget := s.budget - 1 } := if_neg h

theorem readData_underrun {s : State} (h : s.budget = 0) (addr : Addr) :
    s.readData addr = .raise .budgetUnderrun s := if_pos h

/-- A commit after cycles that left `PC` and `BUDGET` at given values. -/
theorem commit_after_cycles (s : State) (r : Reg) (v : Byte) (p : Addr) (b : Count) :
    ({ s with pc := p, budget := b } : State).commit r v =
      { s.setReg r v with flags := { s.flags with n := v.getLsbD 7, z := v == 0 }, pc := p, budget := b } := by
  cases r <;> rfl

/-- Everything `n` consumed bytes can do, in closed form: all are consumed; or the budget ends first; or the
top of memory is met first (60_exceptions.md R168). Whatever `PC` a raise happens at, fault entry restores it. -/
theorem consumeMany_cases (n : Nat) (s : State) :
    (s.pc.toNat + n ≤ 0xFFFF ∧ n ≤ s.budget.toNat ∧ State.consumeMany n s =
      .done () { s with pc := s.pc + BitVec.ofNat 16 n, budget := s.budget - BitVec.ofNat 32 n }) ∨
    (s.budget.toNat < n ∧ s.pc.toNat + s.budget.toNat ≤ 0xFFFF ∧ ∃ p, State.consumeMany n s =
      .raise .budgetUnderrun { s with pc := p, budget := 0 }) ∨
    (0xFFFF < s.pc.toNat + n ∧ 0x10000 - s.pc.toNat ≤ s.budget.toNat ∧ ∃ p, State.consumeMany n s =
      .raise .outOfRange { s with pc := p, budget := s.budget - BitVec.ofNat 32 (0x10000 - s.pc.toNat) }) := by
  induction n generalizing s with
  | zero =>
    have := s.pc.isLt
    exact .inl ⟨by omega, by omega, by simp [State.consumeMany]⟩
  | succ n ih =>
    have hp := s.pc.isLt
    have hb := s.budget.isLt
    simp only [State.consumeMany]
    obtain ⟨h, e⟩ | ⟨h, ht, e⟩ | ⟨h, ht, e⟩ := consume_cases s <;> rw [e]
    · simp only [andThen_raise]
      have h' := budget_eq_zero.mp h
      exact .inr (.inl ⟨by omega, by omega, s.pc, by rw [← h]⟩)
    · simp only [andThen_raise]
      rw [pc_eq_top] at ht
      rw [budget_ne_zero] at h
      exact .inr (.inr ⟨by omega, by omega, s.pc, by rw [ht]; rfl⟩)
    · simp only [andThen_done]
      have h1 := pc_succ_toNat ht
      have h2 := budget_pred_toNat h
      rw [budget_ne_zero] at h
      rw [Ne, pc_eq_top] at ht
      have next := ih { s with budget := s.budget - 1, pc := s.pc + 1 }
      simp only [h1, h2] at next
      obtain ⟨g1, g2, g3⟩ | ⟨g1, g2, p, g3⟩ | ⟨g1, g2, p, g3⟩ := next
      · refine .inl ⟨by omega, by omega, ?_⟩
        rw [g3]
        congr 2
        · apply BitVec.eq_of_toNat_eq
          simp only [BitVec.toNat_add, BitVec.toNat_ofNat, BitVec.reduceToNat]
          omega
        · apply BitVec.eq_of_toNat_eq
          simp only [BitVec.toNat_sub, BitVec.toNat_ofNat, BitVec.reduceToNat]
          omega
      · exact .inr (.inl ⟨by omega, by omega, p, g3⟩)
      · refine .inr (.inr ⟨by omega, by omega, p, ?_⟩)
        rw [g3]
        congr 2
        apply BitVec.eq_of_toNat_eq
        simp only [BitVec.toNat_sub, BitVec.toNat_ofNat, BitVec.reduceToNat]
        omega

end Sys2Proof.Machine
end

