-- ==== Sys2Proof/Laws/Decode.lean ====
section
/-! SUPPORT. The control ROM and the two directions of the instruction builders. -/

namespace Sys2Proof

/-- Where the opcode bytes of the rows are distinct, looking up a row's byte finds that row. -/
theorem find_row {rows : List RomRow} (hn : (rows.map RomRow.opcode).Nodup) {row : RomRow} (hm : row ∈ rows) :
    rows.find? (fun r => r.opcode == row.opcode) = some row := by
  induction rows with
  | nil => cases hm
  | cons head tail ih =>
    rw [List.map_cons, List.nodup_cons] at hn
    rw [List.find?_cons]
    obtain rfl | hm := List.mem_cons.mp hm
    · rw [beq_self_eq_true]
    · have : (head.opcode == row.opcode) = false := by
        rw [beq_eq_false_iff_ne]
        exact fun he => hn.1 (he ▸ List.mem_map_of_mem hm)
      rw [this]
      exact ih hn.2 hm

/-- Every variant has its row. -/
theorem mem_romRows (m : OpcodeMap) (r : Reg) (mode : Mode) : ⟨m.opcodeFor r mode, r, mode⟩ ∈ romRows m := by
  cases r <;> cases mode <;> simp [romRows]

/-- The control ROM on a byte of the executed set: the nine bytes are distinct, so the lookup finds the
row the byte belongs to (30_encoding.md R79). -/
theorem controlRom_opcodeFor {m : OpcodeMap} (h : m.WellFormed) (r : Reg) (mode : Mode) :
    controlRom m (m.opcodeFor r mode) = .load r mode := by
  have hn : ((romRows m).map RomRow.opcode).Nodup := h.1
  unfold controlRom
  rw [find_row hn (mem_romRows m r mode)]

/-- A byte the control ROM loads for is that row's byte. -/
theorem controlRom_eq_load {m : OpcodeMap} {op : Byte} {r : Reg} {mode : Mode} (h : controlRom m op = .load r mode) :
    op = m.opcodeFor r mode := by
  unfold controlRom at h
  split at h
  · rename_i row hrow
    have hmem := List.mem_of_find?_eq_some hrow
    have hop : row.opcode = op := by simpa using List.find?_some hrow
    injection h with hd hm
    subst hd hm hop
    simp only [romRows, List.mem_cons, List.not_mem_nil, or_false] at hmem
    obtain h | h | h | h | h | h | h | h | h := hmem <;> subst h <;> rfl
  · split at h <;> cases h

@[simp] theorem dest_immediate (r : Reg) (v : Byte) : (Instr.immediate r v).dest = r := by cases r <;> rfl
@[simp] theorem dest_zeroPage (r : Reg) (a : Byte) : (Instr.zeroPage r a).dest = r := by cases r <;> rfl
@[simp] theorem dest_absolute (r : Reg) (lo hi : Byte) : (Instr.absolute r lo hi).dest = r := by cases r <;> rfl
@[simp] theorem mode_immediate (r : Reg) (v : Byte) : (Instr.immediate r v).mode = .imm := by cases r <;> rfl
@[simp] theorem mode_zeroPage (r : Reg) (a : Byte) : (Instr.zeroPage r a).mode = .zp := by cases r <;> rfl
@[simp] theorem mode_absolute (r : Reg) (lo hi : Byte) : (Instr.absolute r lo hi).mode = .abs := by cases r <;> rfl
@[simp] theorem operands_immediate (r : Reg) (v : Byte) : (Instr.immediate r v).operands = [v] := by cases r <;> rfl
@[simp] theorem operands_zeroPage (r : Reg) (a : Byte) : (Instr.zeroPage r a).operands = [a] := by cases r <;> rfl
@[simp] theorem operands_absolute (r : Reg) (lo hi : Byte) : (Instr.absolute r lo hi).operands = [lo, hi] := by
  cases r <;> rfl

/-- What the operand decoder can answer: the mode's load of the bytes taken, or a truncation. -/
theorem decodeOperands_cases (r : Reg) (mode : Mode) (bytes : List Byte) :
    (∃ i rest, i.dest = r ∧ i.mode = mode ∧ bytes = i.operands ++ rest ∧ decodeOperands r mode bytes = .ok i rest) ∨
    (bytes.length < mode.operandBytes ∧ decodeOperands r mode bytes = .bad .truncated) := by
  cases mode with
  | imm =>
    cases bytes with
    | nil => exact .inr ⟨Nat.zero_lt_one, rfl⟩
    | cons v rest => exact .inl ⟨Instr.immediate r v, rest, by simp, by simp, by simp, rfl⟩
  | zp =>
    cases bytes with
    | nil => exact .inr ⟨Nat.zero_lt_one, rfl⟩
    | cons a rest => exact .inl ⟨Instr.zeroPage r a, rest, by simp, by simp, by simp, rfl⟩
  | abs =>
    cases bytes with
    | nil => exact .inr ⟨Nat.zero_lt_two, rfl⟩
    | cons lo tail =>
      cases tail with
      | nil => exact .inr ⟨Nat.one_lt_two, rfl⟩
      | cons hi rest => exact .inl ⟨Instr.absolute r lo hi, rest, by simp, by simp, by simp, rfl⟩

end Sys2Proof
end

