-- ==== Sys2Proof/Laws/Exec.lean ====
section
/-! SUPPORT. What executing an instruction does, in closed form: one lemma per addressing mode's operation,
and `exec_eq` over all instructions. -/

namespace Sys2Proof.Machine

/-- What an instruction leaves, in closed form (60_exceptions.md R168, R170). If all its bytes are below
`0xFFFF` it completes, or underruns where the budget is below its cost; otherwise it goes out of range, or
underruns where the budget does not reach the byte at `0xFFFF`. -/
def outcome (s : State) (i : Instr) : State :=
  if s.pc.toNat + i.length ≤ 0xFFFF then
    if i.cost ≤ s.budget.toNat then
      s.loaded i.dest (operandValue s i) (BitVec.ofNat 16 i.length) (BitVec.ofNat 32 i.cost)
    else s.faulted .budgetUnderrun 0
  else if 0x10000 - s.pc.toNat ≤ s.budget.toNat then
    s.faulted .outOfRange (s.budget - BitVec.ofNat 32 (0x10000 - s.pc.toNat))
  else s.faulted .budgetUnderrun 0

/-- Instruction bytes consumed, then a commit of a value already at hand. -/
theorem conclude_commit {n : Nat} {s : State} {r : Reg} {v : Byte} {i : Instr} (hl : i.length = n) (hc : i.cost = n)
    (hd : i.dest = r) (hv : operandValue s i = v) :
    s.conclude ((State.consumeMany n s).andThen fun _ u => .done () (u.commit r v)) = outcome s i := by
  have hp := s.pc.isLt
  unfold outcome
  rw [hl, hc, hd, hv]
  obtain ⟨g1, g2, g3⟩ | ⟨g1, g2, p, g3⟩ | ⟨g1, g2, p, g3⟩ := consumeMany_cases n s <;> rw [g3]
  · rw [if_pos g1, if_pos g2]
    simp only [andThen_done, conclude_done, commit_after_cycles]
  · simp only [andThen_raise, conclude_raise]
    split
    · rw [if_neg (by omega)]
      rfl
    · rw [if_neg (by omega)]
      rfl
  · rw [if_neg (by omega), if_pos g2]
    rfl

/-- Instruction bytes consumed, then a data byte read and committed. -/
theorem conclude_readData {n : Nat} {s : State} {r : Reg} {ea : Addr} {i : Instr} (hl : i.length = n) (hn : n ≤ 3)
    (hc : i.cost = n + 1) (hd : i.dest = r) (hv : operandValue s i = s.mem.read ea) :
    s.conclude ((State.consumeMany n s).andThen fun _ u =>
      (u.readData ea).andThen fun v w => .done () (w.commit r v)) = outcome s i := by
  have hp := s.pc.isLt
  have hb := s.budget.isLt
  unfold outcome
  rw [hl, hc, hd, hv]
  obtain ⟨g1, g2, g3⟩ | ⟨g1, g2, p, g3⟩ | ⟨g1, g2, p, g3⟩ := consumeMany_cases n s <;> rw [g3]
  · rw [if_pos g1]
    simp only [andThen_done]
    have left : (s.budget - BitVec.ofNat 32 n).toNat = s.budget.toNat - n := by
      simp only [BitVec.toNat_sub, BitVec.toNat_ofNat]
      omega
    by_cases hz : s.budget.toNat = n
    · have spent : s.budget - BitVec.ofNat 32 n = 0 := budget_eq_zero.mpr (by omega)
      rw [if_neg (by omega), readData_underrun spent]
      simp only [andThen_raise, conclude_raise]
      rw [spent]
      rfl
    · have more : s.budget - BitVec.ofNat 32 n ≠ 0 := budget_ne_zero.mpr (by omega)
      rw [if_pos (by omega), readData_done more]
      simp only [andThen_done, conclude_done, commit_after_cycles, State.loaded]
      congr 1
      apply BitVec.eq_of_toNat_eq
      simp only [BitVec.toNat_sub, BitVec.toNat_ofNat, BitVec.reduceToNat]
      omega
  · simp only [andThen_raise, conclude_raise]
    split
    · rw [if_neg (by omega)]
      rfl
    · rw [if_neg (by omega)]
      rfl
  · rw [if_neg (by omega), if_pos g2]
    rfl

/-- An immediate load. -/
theorem load_immediate_eq {r : Reg} {v : Byte} {i : Instr} {s : State} (hl : i.length = 2) (hc : i.cost = 2)
    (hd : i.dest = r) (hv : operandValue s i = v) : load r (immediateOperand v) s = .next (outcome s i) := by
  rw [← conclude_commit hl hc hd hv]
  unfold load immediateOperand
  congr 2
  simp only [State.consumeMany]
  cases s.consume with
  | raise f t => rfl
  | done b t =>
    simp only [andThen_done]
    cases t.consume <;> rfl

/-- A zero-page load. -/
theorem load_zeroPage_eq {r : Reg} {a : Byte} {i : Instr} {s : State} (hl : i.length = 2) (hc : i.cost = 3)
    (hd : i.dest = r) (hv : operandValue s i = s.mem.read (zext16 a)) :
    load r (zeroPageOperand a) s = .next (outcome s i) := by
  rw [← conclude_readData hl (by omega) hc hd hv]
  unfold load zeroPageOperand
  congr 2
  simp only [State.consumeMany]
  cases s.consume with
  | raise f t => rfl
  | done b t =>
    simp only [andThen_done]
    cases t.consume <;> rfl

/-- An absolute load. -/
theorem load_absolute_eq {r : Reg} {lo hi : Byte} {i : Instr} {s : State} (hl : i.length = 3) (hc : i.cost = 4)
    (hd : i.dest = r) (hv : operandValue s i = s.mem.read (address lo hi)) :
    load r (absoluteOperand lo hi) s = .next (outcome s i) := by
  rw [← conclude_readData hl (by omega) hc hd hv]
  unfold load absoluteOperand
  congr 2
  simp only [State.consumeMany]
  cases s.consume with
  | raise f t => rfl
  | done b t =>
    simp only [andThen_done]
    cases t.consume with
    | raise f u => rfl
    | done b u =>
      simp only [andThen_done]
      cases u.consume <;> rfl

/-- What every instruction does: it ends in the next state `outcome` gives. -/
theorem exec_eq (i : Instr) (s : State) : exec i s = .next (outcome s i) := by
  cases i with
  | ldaImm v => exact load_immediate_eq rfl rfl rfl rfl
  | ldaZp a => exact load_zeroPage_eq rfl rfl rfl rfl
  | ldaAbs lo hi => exact load_absolute_eq rfl rfl rfl rfl
  | ldxImm v => exact load_immediate_eq rfl rfl rfl rfl
  | ldxZp a => exact load_zeroPage_eq rfl rfl rfl rfl
  | ldxAbs lo hi => exact load_absolute_eq rfl rfl rfl rfl
  | ldyImm v => exact load_immediate_eq rfl rfl rfl rfl
  | ldyZp a => exact load_zeroPage_eq rfl rfl rfl rfl
  | ldyAbs lo hi => exact load_absolute_eq rfl rfl rfl rfl

end Sys2Proof.Machine
end

