-- ==== Sys2Proof/Laws/Memory.lean ====
section
/-! SUPPORT. The laws of memory: read after write, and that every operation keeps the canonical form. -/

namespace Sys2Proof

@[simp] theorem Memory.lookup_nil (a : Nat) : Memory.lookup [] a = Memory.unlisted := rfl

theorem Memory.lookup_cons (k : Nat) (v : Byte) (rest : Memory) (a : Nat) :
    Memory.lookup ((k, v) :: rest) a = if a = k then v else Memory.lookup rest a := rfl

theorem Memory.wfFrom_cons {lo k : Nat} {v : Byte} {rest : Memory} :
    Memory.wfFrom lo ((k, v) :: rest) = true ↔
      lo ≤ k ∧ k < 65536 ∧ v ≠ Memory.unlisted ∧ Memory.wfFrom (k + 1) rest = true := by
  simp [Memory.wfFrom, Memory.unlisted, and_assoc]

/-- The canonical form from an address on is the canonical form from any lower one. -/
theorem Memory.wfFrom_mono {lo lo' : Nat} {mem : Memory} (h : lo' ≤ lo) (hw : Memory.wfFrom lo mem = true) :
    Memory.wfFrom lo' mem = true := by
  cases mem with
  | nil => rfl
  | cons c rest =>
    obtain ⟨k, v⟩ := c
    rw [Memory.wfFrom_cons] at hw ⊢
    exact ⟨by omega, hw.2⟩

/-- Nothing is listed below the address a canonical memory starts from. -/
theorem Memory.lookup_below {lo a : Nat} {mem : Memory} (hw : Memory.wfFrom lo mem = true) (h : a < lo) :
    Memory.lookup mem a = Memory.unlisted := by
  induction mem generalizing lo with
  | nil => rfl
  | cons c rest ih =>
    obtain ⟨k, v⟩ := c
    rw [Memory.wfFrom_cons] at hw
    rw [Memory.lookup_cons, if_neg (by omega)]
    exact ih hw.2.2.2 (by omega)

/-- A write gives the value written at its own address and the old value at every other. -/
theorem Memory.lookup_insert {lo : Nat} {mem : Memory} (hw : Memory.wfFrom lo mem = true) (a a' : Nat) (b : Byte) :
    Memory.lookup (Memory.insert mem a b) a' = if a' = a then b else Memory.lookup mem a' := by
  induction mem generalizing lo with
  | nil =>
    by_cases hb : b = Memory.unlisted <;> by_cases ha : a' = a <;> simp [Memory.insert, hb, ha, Memory.lookup_cons]
  | cons c rest ih =>
    obtain ⟨k, v⟩ := c
    have hr := (Memory.wfFrom_cons.mp hw).2.2.2
    by_cases hlt : a < k
    · by_cases hb : b = Memory.unlisted
      · by_cases ha : a' = a
        · have hbelow := Memory.lookup_below (a := a) (Memory.wfFrom_mono (Nat.le_succ k) hr) hlt
          simp [Memory.insert, hlt, hb, ha, Memory.lookup_cons, hbelow, Nat.ne_of_lt hlt]
        · simp [Memory.insert, hlt, hb, ha]
      · simp [Memory.insert, hlt, hb, Memory.lookup_cons]
    · by_cases heq : a = k
      · subst heq
        by_cases hb : b = Memory.unlisted
        · have hbelow := Memory.lookup_below (a := a) hr (Nat.lt_succ_self a)
          by_cases ha : a' = a
          · simp [Memory.insert, hb, ha, hbelow]
          · simp [Memory.insert, hb, ha, Memory.lookup_cons]
        · by_cases ha : a' = a <;> simp [Memory.insert, hb, ha, Memory.lookup_cons]
      · have ih' := ih hr
        simp only [Memory.insert, hlt, heq, if_false, Memory.lookup_cons, ih']
        by_cases ha : a' = a
        · subst ha
          simp [heq]
        · simp [ha]

/-- A write below 65 536 keeps the canonical form. -/
theorem Memory.insert_wfFrom {lo a : Nat} {mem : Memory} (hw : Memory.wfFrom lo mem = true) (hlo : lo ≤ a)
    (ha : a < 65536) (b : Byte) : Memory.wfFrom lo (Memory.insert mem a b) = true := by
  induction mem generalizing lo with
  | nil =>
    by_cases hb : b = Memory.unlisted
    · simp [Memory.insert, hb, Memory.wfFrom]
    · simp only [Memory.insert, if_neg hb]
      exact Memory.wfFrom_cons.mpr ⟨hlo, ha, hb, rfl⟩
  | cons c rest ih =>
    obtain ⟨k, v⟩ := c
    obtain ⟨h1, h2, h3, h4⟩ := Memory.wfFrom_cons.mp hw
    by_cases hlt : a < k
    · by_cases hb : b = Memory.unlisted
      · simpa [Memory.insert, hlt, hb] using hw
      · simp [Memory.insert, hlt, hb, Memory.wfFrom_cons, hlo, ha, h2, h3, h4, Nat.succ_le_of_lt hlt]
    · by_cases heq : a = k
      · subst heq
        by_cases hb : b = Memory.unlisted
        · simpa [Memory.insert, hb] using Memory.wfFrom_mono (by omega) h4
        · simp [Memory.insert, hb, Memory.wfFrom_cons, h1, h2, h4]
      · have := ih h4 (by omega)
        simp [Memory.insert, hlt, heq, Memory.wfFrom_cons, h1, h2, h3, this]

/-- `MemWrite` keeps the canonical form. -/
theorem Memory.write_wf {mem : Memory} (hw : mem.wf = true) (addr : Addr) (v : Byte) : (mem.write addr v).wf = true :=
  Memory.insert_wfFrom hw (Nat.zero_le _) addr.isLt v

/-- A read after a write gives the byte written at its address, and what it gave before elsewhere. -/
theorem Memory.read_write {mem : Memory} (hw : mem.wf = true) (addr addr' : Addr) (v : Byte) :
    (mem.write addr v).read addr' = if addr' = addr then v else mem.read addr' := by
  simp only [Memory.read, Memory.write, Memory.lookup_insert hw, BitVec.toNat_inj]

/-- The empty memory is in canonical form. -/
theorem Memory.nil_wf : Memory.wf [] = true := rfl

theorem Memory.foldl_write_wf (writes : List (Addr × Byte)) {mem : Memory} (hw : mem.wf = true) :
    (writes.foldl (fun mem w => mem.write w.1 w.2) mem).wf = true := by
  induction writes generalizing mem with
  | nil => exact hw
  | cons w rest ih => exact ih (Memory.write_wf hw w.1 w.2)

/-- Whatever the host writes, the image it loads is in canonical form. -/
theorem Memory.load_wf (writes : List (Addr × Byte)) : (Memory.load writes).wf = true :=
  Memory.foldl_write_wf writes Memory.nil_wf

/-- Placing bytes keeps the canonical form. -/
theorem Memory.place_wf (bytes : List Byte) (a : Nat) {mem : Memory} (hw : mem.wf = true) :
    (Memory.place bytes a mem).wf = true := by
  induction bytes generalizing a mem with
  | nil => exact hw
  | cons b rest ih =>
    simp only [Memory.place]
    split
    · exact ih (a + 1) (Memory.insert_wfFrom hw (Nat.zero_le _) ‹_› b)
    · exact hw

end Sys2Proof
end

