-- ==== Sys2Proof/Laws/PerInstr.lean ====
section
/-! SUPPORT. Families of per-instruction facts. -/

namespace Sys2Proof.Laws

/-- An instruction's bytes are as many as its length, at any opcode map, and its length and cost are in the
ranges of the document: one opcode byte and one or two operand bytes (30_encoding.md R70, R75), a cycle
cost between 1 and 7 (00_scope.md R6). -/
def Encoding.Statement (i : Instr) : Prop :=
  (∀ m, (encodeWith m i).length = i.length) ∧ 2 ≤ i.length ∧ i.length ≤ 3 ∧ 1 ≤ i.cost ∧ i.cost ≤ 7

/-- What every mode's length and cost satisfy. -/
theorem mode_ranges (mode : Mode) :
    2 ≤ 1 + mode.operandBytes ∧ 1 + mode.operandBytes ≤ 3 ∧ 1 ≤ mode.cost ∧ mode.cost ≤ 7 := by
  cases mode <;> decide

theorem Encoding.ldaImm (imm8 : Byte) : Encoding.Statement (.ldaImm imm8) := ⟨fun _ => rfl, mode_ranges _⟩
theorem Encoding.ldaZp (zp8 : Byte) : Encoding.Statement (.ldaZp zp8) := ⟨fun _ => rfl, mode_ranges _⟩
theorem Encoding.ldaAbs (lo hi : Byte) : Encoding.Statement (.ldaAbs lo hi) := ⟨fun _ => rfl, mode_ranges _⟩
theorem Encoding.ldxImm (imm8 : Byte) : Encoding.Statement (.ldxImm imm8) := ⟨fun _ => rfl, mode_ranges _⟩
theorem Encoding.ldxZp (zp8 : Byte) : Encoding.Statement (.ldxZp zp8) := ⟨fun _ => rfl, mode_ranges _⟩
theorem Encoding.ldxAbs (lo hi : Byte) : Encoding.Statement (.ldxAbs lo hi) := ⟨fun _ => rfl, mode_ranges _⟩
theorem Encoding.ldyImm (imm8 : Byte) : Encoding.Statement (.ldyImm imm8) := ⟨fun _ => rfl, mode_ranges _⟩
theorem Encoding.ldyZp (zp8 : Byte) : Encoding.Statement (.ldyZp zp8) := ⟨fun _ => rfl, mode_ranges _⟩
theorem Encoding.ldyAbs (lo hi : Byte) : Encoding.Statement (.ldyAbs lo hi) := ⟨fun _ => rfl, mode_ranges _⟩

end Sys2Proof.Laws
end

