-- ==== Sys2Proof/Laws/Step.lean ====
section
/-! SUPPORT. What a fetch and a step can do, said once. -/

namespace Sys2Proof.Machine

theorem bytesFrom_length (mem : Memory) (k a : Nat) :
    (mem.bytesFrom k a).length = if a + k ≤ 65536 then k else 65536 - a := by
  induction k generalizing a with
  | zero =>
    simp only [Memory.bytesFrom, List.length_nil]
    split <;> omega
  | succ k ih =>
    simp only [Memory.bytesFrom]
    by_cases ha : a < 65536
    · rw [if_pos ha, List.length_cons, ih]
      split <;> split <;> omega
    · rw [if_neg ha, List.length_nil]
      split <;> omega

/-- There is always a byte at `PC`. -/
theorem window_eq_cons (s : State) : s.window = s.mem.read s.pc :: s.mem.bytesFrom 2 (s.pc.toNat + 1) := by
  rw [State.window, Memory.bytesFrom, if_pos s.pc.isLt, Memory.read]

/-- What an instruction cut short by the top of memory leaves (60_exceptions.md R168, rows `p = 0xFFFE`). -/
theorem cutShort_eq {s : State} (hp : s.pc.toNat = 0xFFFE) :
    s.cutShort = if 2 ≤ s.budget.toNat then s.faulted .outOfRange (s.budget - 2) else s.faulted .budgetUnderrun 0 := by
  unfold State.cutShort
  obtain ⟨g1, g2, g3⟩ | ⟨g1, g2, p, g3⟩ | ⟨g1, g2, p, g3⟩ := consumeMany_cases 3 s
  · omega
  · rw [g3, if_neg (by omega)]
    rfl
  · rw [g3, if_pos (by omega), hp]
    rfl

/-- What a fetch with budget can do: an instruction decoded from the bytes at `PC`; a fault of the opcode
cycle, one cycle charged; or an instruction cut short by the top of memory. -/
theorem fetch_cases (m : OpcodeMap) {s : State} (hb : s.budget ≠ 0) :
    (s.pc ≠ 0xFFFF ∧ ∃ i rest, decodeWith m s.window = .ok i rest ∧ fetch m s = .instr i) ∨
    (∃ f, fetch m s = .settled (s.faulted f (s.budget - 1)) ∧
      ((f = .illegalOpcode ∧ controlRom m (s.mem.read s.pc) = .illegal) ∨
        (f = .unimplementedOpcode ∧ controlRom m (s.mem.read s.pc) = .unimplemented) ∨
        (f = .outOfRange ∧ s.pc = 0xFFFF))) ∨
    (s.pc.toNat = 0xFFFE ∧ fetch m s = .settled s.cutShort) := by
  unfold fetch
  by_cases hp : s.pc = 0xFFFF
  · rw [consume_top hb hp]
    exact .inr (.inl ⟨_, rfl, .inr (.inr ⟨rfl, hp⟩)⟩)
  · rw [consume_done hb hp, window_eq_cons]
    simp only [decodeWith]
    cases hrom : controlRom m (s.mem.read s.pc) with
    | illegal => exact .inr (.inl ⟨_, rfl, .inl ⟨rfl, rfl⟩⟩)
    | unimplemented => exact .inr (.inl ⟨_, rfl, .inr (.inl ⟨rfl, rfl⟩)⟩)
    | load r mode =>
      obtain ⟨i, rest, _, _, _, hd⟩ | ⟨short, hd⟩ :=
        decodeOperands_cases r mode (s.mem.bytesFrom 2 (s.pc.toNat + 1))
      · exact .inl ⟨hp, i, rest, hd, by simp only [hd]⟩
      · refine .inr (.inr ⟨?_, by simp only [hd]⟩)
        have := s.pc.isLt
        have : mode.operandBytes ≤ 2 := by cases mode <;> decide
        rw [bytesFrom_length] at short
        rw [pc_eq_top] at hp
        split at short <;> omega

/-- What a boundary can be. -/
theorem boundary_cases (m : OpcodeMap) (s : State) :
    (s.run = .halted ∧ boundary m s = .settled s) ∨
    (s.run = .running ∧ s.budget = 0 ∧ boundary m s = .settled s.halt) ∨
    (s.run = .running ∧ s.budget ≠ 0 ∧ boundary m s = fetch m s) := by
  cases hr : s.run with
  | halted => exact .inl ⟨rfl, by simp only [boundary, hr]⟩
  | running =>
    right
    by_cases hb : s.budget = 0
    · exact .inl ⟨rfl, hb, by simp only [boundary, hr, if_pos hb]⟩
    · exact .inr ⟨rfl, hb, by simp only [boundary, hr, if_neg hb]⟩

/-- What a step can do, at any opcode map: stay halted; halt at `BUDGET = 0`; run the decoded instruction; fault in
the opcode cycle; or be cut short by the top of memory. -/
theorem step_cases {m : OpcodeMap} {s t : State} (h : stepWith m s = .next t) :
    (s.run = .halted ∧ t = s) ∨
    (s.run = .running ∧ s.budget = 0 ∧ t = s.halt) ∨
    (s.run = .running ∧ s.budget ≠ 0 ∧
      ((∃ i rest, decodeWith m s.window = .ok i rest ∧ t = outcome s i) ∨
        (∃ f, t = s.faulted f (s.budget - 1) ∧
          (f = .illegalOpcode ∨ f = .unimplementedOpcode ∨ (f = .outOfRange ∧ s.pc = 0xFFFF))) ∨
        (s.pc.toNat = 0xFFFE ∧ t = s.cutShort))) := by
  unfold stepWith at h
  obtain ⟨hr, e⟩ | ⟨hr, hb, e⟩ | ⟨hr, hb, e⟩ := boundary_cases m s <;> rw [e] at h
  · injection h with h
    exact .inl ⟨hr, h.symm⟩
  · injection h with h
    exact .inr (.inl ⟨hr, hb, h.symm⟩)
  · refine .inr (.inr ⟨hr, hb, ?_⟩)
    obtain ⟨_, i, rest, hd, e'⟩ | ⟨f, e', hf⟩ | ⟨hp, e'⟩ := fetch_cases m hb <;> rw [e'] at h
    · simp only [exec_eq] at h
      injection h with h
      exact .inl ⟨i, rest, hd, h.symm⟩
    · injection h with h
      refine .inr (.inl ⟨f, h.symm, ?_⟩)
      obtain ⟨hf, _⟩ | ⟨hf, _⟩ | hf := hf
      · exact .inl hf
      · exact .inr (.inl hf)
      · exact .inr (.inr hf)
    · injection h with h
      exact .inr (.inr ⟨hp, h.symm⟩)

/-- Every step ends in a next state: there is no fault outcome and no refusal. -/
theorem step_next (m : OpcodeMap) (s : State) : ∃ t, stepWith m s = .next t := by
  unfold stepWith
  cases boundary m s with
  | settled t => exact ⟨t, rfl⟩
  | instr i => exact ⟨_, exec_eq i s⟩

end Sys2Proof.Machine
end

