-- ==== Sys2Proof/Tests/Slice0.lean ====
section
/-! SUPPORT. The model's own tests: expected results are those of spec/95_test_vectors.md or worked by hand from
the rule named; and one witness for every statement with hypotheses, at the boundary values of its clauses. -/

namespace Sys2Proof.Tests

open Sys2Proof.Machine

/-- The values of vector 2.6 in the state the spec leaves arbitrary, so that a test sees what is left alone. -/
def start (pc : Addr) (budget : Count) (mem : Memory) : State where
  a := 0x11
  x := 0x22
  y := 0x33
  pc := pc
  sp := 0x01FD
  flags := ⟨true, true, true, true, true, true, false⟩
  budget := budget
  run := .running
  fault := none
  mem := mem

/-- `start` with bytes placed at `PC`. -/
def code (pc : Addr) (budget : Count) (bytes : List Byte) : State :=
  start pc budget (Memory.place bytes pc.toNat [])

/-- What a test looks at in a step's next state. -/
def result {α : Type} (f : State → α) (s : State) : Option α :=
  match step s with
  | .next t => some (f t)
  | .fault _ => none
  | .refused _ => none

/-- Whether an outcome is the next state `t`: outcomes are compared through it, since `Host.Outcome` has no decidable
equality of its own. -/
def nextIs (o : Host.Outcome State Fault Refusal) (t : State) : Bool :=
  match o with
  | .next u => decide (u = t)
  | .fault _ => false
  | .refused _ => false

theorem eq_next_of_nextIs {o : Host.Outcome State Fault Refusal} {t : State} (h : nextIs o t = true) :
    o = .next t := by
  cases o <;> simp_all [nextIs]

/-! ### Well-formedness refuses -/

/-- An opcode map with `OPC_LDX_IMM = 0xA9` and two more assembler bytes, `0x8D` and `0xEA`: another
configuration of the hardware (00_scope.md R7). -/
def otherMap : OpcodeMap :=
  { Config.opcodes with
    ldxImm := 0xA9
    assembler := [0x89, 0xA5, 0xAD, 0xA9, 0xA6, 0xAE, 0xA0, 0xA4, 0xAC, 0x8D, 0xEA] }

theorem test_default_map_wellFormed : Config.opcodes.WellFormed := by decide
theorem test_other_map_wellFormed : otherMap.WellFormed := by decide
theorem test_repeated_parameter_refused : ¬ { Config.opcodes with ldxZp := 0xA4 }.WellFormed := by decide
theorem test_parameter_equal_to_lda_immediate_refused : ¬ { Config.opcodes with ldxImm := 0x89 }.WellFormed := by decide
theorem test_assembler_without_an_executed_byte_refused :
    ¬ { Config.opcodes with assembler := [0x89, 0xAD] }.WellFormed := by decide
theorem test_memory_out_of_order_refused : Memory.wf [(2, 1), (1, 1)] = false := by decide
theorem test_memory_repeated_address_refused : Memory.wf [(2, 1), (2, 1)] = false := by decide
theorem test_memory_listed_zero_refused : Memory.wf [(2, 0)] = false := by decide
theorem test_memory_beyond_the_top_refused : Memory.wf [(65536, 1)] = false := by decide
theorem test_inputs_with_bad_image_refused : ¬ { resetInputs with image := [(3, 0)] }.WellFormed := by decide
theorem test_memory_top_address_accepted : Memory.wf [(0, 1), (65535, 1)] = true := by decide

/-! ### Decoding: words written out bit by bit from opcode_table.json and 30_encoding.md R72 to R74 -/

theorem test_decode_lda_imm : decode [0b10001001, 0b00001010] = .ok (.ldaImm 10) [] := by decide
theorem test_decode_lda_zp : decode [0b10100101, 0b00010000] = .ok (.ldaZp 0x10) [] := by decide
theorem test_decode_lda_abs : decode [0b10101101, 0b00110100, 0b00010010] = .ok (.ldaAbs 0x34 0x12) [] := by decide
theorem test_decode_ldx_imm : decode [0b10100010, 0b11111111] = .ok (.ldxImm 0xFF) [] := by decide
theorem test_decode_ldx_zp : decode [0b10100110, 0b00000011] = .ok (.ldxZp 3) [] := by decide
theorem test_decode_ldx_abs : decode [0b10101110, 0b00000000, 0b00100000] = .ok (.ldxAbs 0 0x20) [] := by decide
theorem test_decode_ldy_imm : decode [0b10100000, 0b10000000] = .ok (.ldyImm 0x80) [] := by decide
theorem test_decode_ldy_zp : decode [0b10100100, 0b11111111] = .ok (.ldyZp 0xFF) [] := by decide
theorem test_decode_ldy_abs : decode [0b10101100, 0b00010000, 0b00000000, 7] = .ok (.ldyAbs 0x10 0) [7] := by decide

/-- 95_test_vectors.md 2.2: the last two rows of bytes that are illegal with the default parameters, and `A9`, `00`, `EA`. -/
theorem test_decode_rejects_by_name :
    [0xA9, 0x00, 0xEA, 0x88, 0x8B, 0xAA, 0xA3, 0xA1, 0xFF].all
      (fun op => decode [op, 5, 5] == .bad (.illegalOpcode op)) = true := by decide
theorem test_decode_unimplemented : decodeWith otherMap [0x8D, 0, 0] = .bad (.unimplementedOpcode 0x8D) := by decide
theorem test_decode_truncated : decode [0xAD, 0x34] = .bad .truncated ∧ decode [] = .bad .noBytes := by decide
theorem test_decode_follows_the_parameters :
    decodeWith otherMap [0xA9, 5] = .ok (.ldxImm 5) [] ∧
    decodeWith otherMap [0xA2, 5] = .bad (.illegalOpcode 0xA2) := by decide

/-- S3: `LDA $1234` is `AD 34 12`. -/
theorem test_encode_lda_abs : encode (.ldaAbs 0x34 0x12) = [0xAD, 0x34, 0x12] := by decide
theorem test_decodeTableWord : decodeTableWord 24 0x1234AD = some (.ldaAbs 0x34 0x12) := by decide
theorem test_decodeTableWord_opcode_only : decodeTableWord 8 0x89 = some (.ldaImm 0) := by decide
theorem test_decodeTableWord_rejects : decodeTableWord 16 0x05A9 = none := by decide

/-! ### One step of each instruction -/

/-- S5 (less the halt transition) and the rest of the state left alone. -/
theorem test_lda_imm : step (code 0 2 [0x89, 0x0A]) = .next { code 0 2 [0x89, 0x0A] with
    a := 0x0A, pc := 2, budget := 0, flags := ⟨true, false, true, true, true, true, false⟩ } := eq_next_of_nextIs (by decide)
/-- 2.3, row `89 80`. -/
theorem test_lda_imm_negative :
    result (fun t => (t.a, t.flags.n, t.flags.z)) (code 0 2 [0x89, 0x80]) = some (0x80, true, false) := by decide
/-- 2.4, row `A5 10` with `MEM[0010] = 80`. -/
theorem test_lda_zp : result (fun t => (t.a, t.flags.n, t.flags.z, t.pc, t.budget))
    (start 0 3 [(0, 0xA5), (1, 0x10), (0x10, 0x80)]) = some (0x80, true, false, 2, 0) := by decide
/-- 2.4, row `A5 00`: loads its own opcode byte. -/
theorem test_lda_zp_own_opcode :
    result (fun t => (t.a, t.flags.n, t.flags.z)) (code 0 3 [0xA5, 0x00]) = some (0xA5, true, false) := by decide
/-- 2.5, second row: the address is `1234`, not `3412`. -/
theorem test_lda_abs_byte_order : result (fun t => (t.a, t.flags.n, t.flags.z, t.pc, t.budget))
    (start 0 4 [(0, 0xAD), (1, 0x34), (2, 0x12), (0x1234, 0x9C), (0x3412, 0x11)]) = some (0x9C, true, false, 3, 0) := by
  decide
/-- 2.9, last row: the last place a 3-byte instruction completes. -/
theorem test_lda_abs_last_place : result (fun t => (t.a, t.pc, t.budget, t.fault))
    (code 0xFFFC 4 [0xAD, 0xFC, 0xFF]) = some (0xAD, 0xFFFF, 0, none) := by decide
/-- 2.6: what a load leaves alone. -/
theorem test_ldx_imm : step (code 0 2 [0xA2, 0x80]) = .next { code 0 2 [0xA2, 0x80] with
    x := 0x80, pc := 2, budget := 0, flags := ⟨true, false, true, true, true, true, true⟩ } := eq_next_of_nextIs (by decide)
/-- R134's example, at `PC = 2`. -/
theorem test_ldx_zp : result (fun t => (t.x, t.flags.n, t.flags.z, t.pc, t.budget)) (code 2 3 [0xA6, 0x03]) =
    some (0x03, false, false, 4, 0) := by decide
/-- R135's example. -/
theorem test_ldx_abs : result (fun t => ((t.a, t.x, t.y), (t.flags.n, t.flags.z), t.pc, t.budget))
    (start 0 4 [(0, 0xAE), (2, 0x20), (0x2000, 0x7F)]) = some ((0x11, 0x7F, 0x33), (false, false), 3, 0) := by decide
/-- R136's example. -/
theorem test_ldy_imm : result (fun t => ((t.a, t.x, t.y), (t.flags.n, t.flags.z), t.pc, t.budget)) (code 0 2 [0xA0]) =
    some ((0x11, 0x22, 0x00), (false, true), 2, 0) := by decide
/-- R137's example. -/
theorem test_ldy_zp : result (fun t => (t.y, t.flags.n, t.flags.z, t.pc, t.budget))
    (start 0 3 [(0, 0xA4), (1, 0xFF), (0xFF, 0x01)]) = some (0x01, false, false, 2, 0) := by decide
/-- R138's example: a data read at the top address. -/
theorem test_ldy_abs : result (fun t => (t.y, t.flags.n, t.flags.z, t.pc, t.budget))
    (start 0 4 [(0, 0xAC), (1, 0xFF), (2, 0xFF), (0xFFFF, 0x80)]) = some (0x80, true, false, 3, 0) := by decide

/-! ### Halting and faults (2.7 to 2.9) -/

theorem test_empty_budget_halts : step (code 0 0 [0x89, 0x0A]) =
    .next { code 0 0 [0x89, 0x0A] with run := .halted } := eq_next_of_nextIs (by decide)
theorem test_underrun_commits_nothing : step (code 0 2 [0xA5, 0x10]) =
    .next { code 0 2 [0xA5, 0x10] with budget := 0, run := .halted, fault := some .budgetUnderrun } := eq_next_of_nextIs (by decide)
theorem test_zero_byte_is_illegal : step (code 0 5 []) =
    .next { code 0 5 [] with budget := 4, run := .halted, fault := some .illegalOpcode } := eq_next_of_nextIs (by decide)
theorem test_unimplemented_opcode : stepWith otherMap (code 0 5 [0xEA]) =
    .next { code 0 5 [0xEA] with budget := 4, run := .halted, fault := some .unimplementedOpcode } := eq_next_of_nextIs (by decide)
theorem test_out_of_range_in_second_cycle : step (code 0xFFFE 2 [0x89, 1]) =
    .next { code 0xFFFE 2 [0x89, 1] with budget := 0, run := .halted, fault := some .outOfRange } := eq_next_of_nextIs (by decide)
theorem test_out_of_range_precedes_decode : step (code 0xFFFF 3 [0x00]) =
    .next { code 0xFFFF 3 [0x00] with budget := 2, run := .halted, fault := some .outOfRange } := eq_next_of_nextIs (by decide)
theorem test_out_of_range_in_third_cycle : step (code 0xFFFD 4 [0xAD, 0, 0]) =
    .next { code 0xFFFD 4 [0xAD, 0, 0] with budget := 1, run := .halted, fault := some .outOfRange } := eq_next_of_nextIs (by decide)
/-- R168, row `p = 0xFFFE`, `b >= 2`, for a 3-byte load: the third byte does not exist. -/
theorem test_cut_short : step (code 0xFFFE 4 [0xAD, 0]) =
    .next { code 0xFFFE 4 [0xAD, 0] with budget := 2, run := .halted, fault := some .outOfRange } := eq_next_of_nextIs (by decide)
theorem test_cut_short_underrun : step (code 0xFFFE 1 [0xAD, 0]) =
    .next { code 0xFFFE 1 [0xAD, 0] with budget := 0, run := .halted, fault := some .budgetUnderrun } := eq_next_of_nextIs (by decide)
theorem test_reset_halts_at_once : step State.reset = .next { State.reset with run := .halted } := eq_next_of_nextIs (by decide)
theorem test_placed_word_runs : result (fun t => (t.a, t.pc, t.budget, t.run))
    (State.reset.withFetchWord 16 0x0A89) = some (0x0A, 2, 0, .running) := by decide
/-- The cycle-level engine (R115) reaches the same state in 4 cycles. -/
theorem test_cycles_lda_abs : some (cycles Config.opcodes 4 (atBoundary (code 0 4 [0xAD, 0x00, 0x00]))) =
    result atBoundary (code 0 4 [0xAD, 0x00, 0x00]) := by decide

/-! ### The assembler (2.11) -/

/-- The image and budget of a source, none where the pass fails. -/
def assembled (source : List (List Char)) : Option (Memory × Count) :=
  match Assembler.assemble Config.opcodes source with
  | .ok p => some (p.image, p.budget)
  | .failed _ _ => none

theorem test_asm_decimal_immediate :
    assembled [['L', 'D', 'A', ' ', '#', '1', '0']] = some ([(0, 0x89), (1, 0x0A)], 2) := by decide
theorem test_asm_hex_immediate :
    assembled [['L', 'D', 'A', ' ', '#', '$', '0', 'A']] = some ([(0, 0x89), (1, 0x0A)], 2) := by decide
theorem test_asm_absolute :
    assembled [['L', 'D', 'A', ' ', '$', '1', '2', '3', '4']] = some ([(0, 0xAD), (1, 0x34), (2, 0x12)], 4) := by decide
theorem test_asm_zero_page_by_value :
    assembled [['L', 'D', 'A', ' ', '$', '0', '0', '1', '2']] = some ([(0, 0xA5), (1, 0x12)], 3) := by decide
theorem test_asm_cursor_carries :
    assembled [['L', 'D', 'X', ' ', '#', '1'], [], ['L', 'D', 'Y', ' ', '$', '1', '0', '0', '0']] =
      some ([(0, 0xA2), (1, 0x01), (2, 0xAC), (4, 0x10)], 6) := by decide
theorem test_asm_no_operand :
    Assembler.resolveLine ['L', 'D', 'A'] = .error .unsupportedAddressingMode := by decide
theorem test_asm_bad_operand :
    Assembler.resolveLine ['L', 'D', 'A', ' ', '1', '0'] = .error .unsupportedOperandSyntax := by decide
theorem test_asm_lower_case :
    Assembler.resolveLine ['l', 'd', 'a', ' ', '#', '1', '0'] = .error (.syntaxError ['l', 'd', 'a']) := by decide
theorem test_asm_immediate_too_large :
    Assembler.resolveLine ['L', 'D', 'A', ' ', '#', '2', '5', '6'] = .error (.syntaxError ['L', 'D', 'A']) := by decide
theorem test_asm_hex_immediate_digits :
    Assembler.resolveLine ['L', 'D', 'A', ' ', '#', '$', '1'] = .error (.syntaxError ['L', 'D', 'A']) := by decide
theorem test_asm_address_too_large :
    Assembler.resolveLine ['L', 'D', 'A', ' ', '$', '1', '0', '0', '0', '0'] = .error .outOfRange := by decide
/-- S7: what earlier lines emitted stays. -/
theorem test_asm_unknown_mnemonic :
    Assembler.assemble Config.opcodes [['L', 'D', 'A', ' ', '#', '1', '0'], ['F', 'O', 'O']] =
      .failed (.syntaxError ['F', 'O', 'O']) ⟨2, [(0, 0x89), (1, 0x0A)], 2⟩ := by decide

/-! ### Witnesses: each statement's hypotheses are met together, at the boundary values of its clauses -/

/-- The hypotheses the statements about a load step share. -/
abbrev AtLoad (s : State) (r : Reg) (mode : Mode) : Prop :=
  Config.opcodes.WellFormed ∧ s.run = .running ∧ s.mem.read s.pc = Config.opcodes.opcodeFor r mode

theorem witness_DecodeOfEncodeIsTheInstruction : Config.opcodes.WellFormed ∧ otherMap.WellFormed := by decide
theorem witness_EncodeOfDecodeIsTheBytes : decodeWith otherMap [0xAD, 1, 2, 3] = .ok (.ldaAbs 1 2) [3] := by decide
theorem witness_ControlRomLoadsExactlyNineBytes : otherMap.WellFormed ∧ controlRom otherMap 0xA9 = .load .x .imm ∧
    controlRom otherMap 0x8D = .unimplemented ∧ controlRom otherMap 0xA2 = .illegal := by decide

/-- First clause, at the top: an instruction whose last byte is at `0xFFFF`. -/
theorem witness_StepRunsTheDecodedInstruction_bytes :
    let s := code 0xFFFD 4 [0xAD, 1, 2]
    Config.opcodes.WellFormed ∧ s.run = .running ∧ s.budget ≠ 0 ∧
    s.pc.toNat + (Instr.ldaAbs 1 2).length ≤ 0x10000 ∧
    ∀ k, k < (Instr.ldaAbs 1 2).length →
      (encodeWith Config.opcodes (.ldaAbs 1 2))[k]? = some (s.mem.lookup (s.pc.toNat + k)) := by decide
/-- Second and third clause. -/
theorem witness_StepRunsTheDecodedInstruction_window :
    let s := code 0xFFFE 1 [0x89, 7]
    s.run = .running ∧ s.budget ≠ 0 ∧ decode s.window = .ok (.ldaImm 7) [] := by decide

theorem witness_EmptyBudgetHaltsAtTheBoundary :
    (code 0 0 [0x89]).run = .running ∧ (code 0 0 [0x89]).budget = 0 ∧
    stepWith Config.opcodes (code 0 0 [0x89]) = .next (code 0 0 [0x89]).halt ∧
    (code 0 0 [0x89]).halt.run = .halted ∧ (code 0 0 [0x89]).halt.fault = none := by
  and_intros <;> first | decide | exact eq_next_of_nextIs (by decide)
theorem witness_HaltedCoreStaysAsItIs : (code 0 5 [0x89]).halt.run = .halted := by decide

theorem witness_OtherOpcodeBytesFault_illegal :
    let s := code 0xFFFE 1 [0x00]
    Config.opcodes.WellFormed ∧ s.run = .running ∧ s.budget ≠ 0 ∧ s.pc ≠ 0xFFFF ∧
    s.mem.read s.pc ∉ Config.opcodes.executed ∧ s.mem.read s.pc ∉ Config.opcodes.assembler := by decide
theorem witness_OtherOpcodeBytesFault_unimplemented :
    let s := code 0 1 [0xEA]
    otherMap.WellFormed ∧ s.run = .running ∧ s.budget ≠ 0 ∧ s.pc ≠ 0xFFFF ∧
    s.mem.read s.pc ∉ otherMap.executed ∧ s.mem.read s.pc ∈ otherMap.assembler := by decide

theorem witness_ImmediateLoadsComplete :
    2 ≤ (code 0xFFFD 2 [0x89]).budget.toNat ∧ (code 0xFFFD 2 [0x89]).pc.toNat ≤ 0xFFFD := by decide
theorem witness_ZeroPageLoadsComplete :
    3 ≤ (code 0xFFFD 3 [0xA5]).budget.toNat ∧ (code 0xFFFD 3 [0xA5]).pc.toNat ≤ 0xFFFD := by decide
theorem witness_AbsoluteLoadsComplete :
    4 ≤ (code 0xFFFC 4 [0xAD]).budget.toNat ∧ (code 0xFFFC 4 [0xAD]).pc.toNat ≤ 0xFFFC := by decide

theorem witness_ImmediateLoadSteps :
    (AtLoad (code 0xFFFD 2 [0x89, 5]) .a .imm ∧ 2 ≤ (code 0xFFFD 2 [0x89, 5]).budget.toNat ∧
      (code 0xFFFD 2 [0x89, 5]).pc.toNat ≤ 0xFFFD) ∧
    (AtLoad (code 0xFFFE 1 [0xA2, 5]) .x .imm ∧ (code 0xFFFE 1 [0xA2, 5]).budget = 1 ∧
      (code 0xFFFE 1 [0xA2, 5]).pc ≠ 0xFFFF) ∧
    (AtLoad (code 0xFFFE 2 [0xA0, 5]) .y .imm ∧ 2 ≤ (code 0xFFFE 2 [0xA0, 5]).budget.toNat ∧
      (code 0xFFFE 2 [0xA0, 5]).pc = 0xFFFE) ∧
    (AtLoad (code 0xFFFF 1 [0xA0]) .y .imm ∧ 1 ≤ (code 0xFFFF 1 [0xA0]).budget.toNat ∧
      (code 0xFFFF 1 [0xA0]).pc = 0xFFFF) := by
  and_intros <;> decide

theorem witness_ZeroPageLoadSteps :
    (AtLoad (code 0xFFFD 3 [0xA5, 5]) .a .zp ∧ 3 ≤ (code 0xFFFD 3 [0xA5, 5]).budget.toNat ∧
      (code 0xFFFD 3 [0xA5, 5]).pc.toNat ≤ 0xFFFD) ∧
    (AtLoad (code 0xFFFE 1 [0xA6, 5]) .x .zp ∧ (code 0xFFFE 1 [0xA6, 5]).budget = 1 ∧
      (code 0xFFFE 1 [0xA6, 5]).pc ≠ 0xFFFF) ∧
    (AtLoad (code 0xFFFD 2 [0xA6, 5]) .x .zp ∧ (code 0xFFFD 2 [0xA6, 5]).budget = 2 ∧
      (code 0xFFFD 2 [0xA6, 5]).pc.toNat ≤ 0xFFFD) ∧
    (AtLoad (code 0xFFFE 2 [0xA4, 5]) .y .zp ∧ 2 ≤ (code 0xFFFE 2 [0xA4, 5]).budget.toNat ∧
      (code 0xFFFE 2 [0xA4, 5]).pc = 0xFFFE) ∧
    (AtLoad (code 0xFFFF 1 [0xA4]) .y .zp ∧ 1 ≤ (code 0xFFFF 1 [0xA4]).budget.toNat ∧
      (code 0xFFFF 1 [0xA4]).pc = 0xFFFF) := by
  and_intros <;> decide

theorem witness_AbsoluteLoadSteps :
    (AtLoad (code 0xFFFC 4 [0xAD, 5, 6]) .a .abs ∧ 4 ≤ (code 0xFFFC 4 [0xAD, 5, 6]).budget.toNat ∧
      (code 0xFFFC 4 [0xAD, 5, 6]).pc.toNat ≤ 0xFFFC) ∧
    (AtLoad (code 0xFFFE 1 [0xAE, 5]) .x .abs ∧ (code 0xFFFE 1 [0xAE, 5]).budget = 1 ∧
      (code 0xFFFE 1 [0xAE, 5]).pc ≠ 0xFFFF) ∧
    (AtLoad (code 0xFFFD 2 [0xAE, 5, 6]) .x .abs ∧ (code 0xFFFD 2 [0xAE, 5, 6]).budget = 2 ∧
      (code 0xFFFD 2 [0xAE, 5, 6]).pc.toNat ≤ 0xFFFD) ∧
    (AtLoad (code 0xFFFC 3 [0xAC, 5, 6]) .y .abs ∧ (code 0xFFFC 3 [0xAC, 5, 6]).budget = 3 ∧
      (code 0xFFFC 3 [0xAC, 5, 6]).pc.toNat ≤ 0xFFFC) ∧
    (AtLoad (code 0xFFFD 3 [0xAC, 5, 6]) .y .abs ∧ 3 ≤ (code 0xFFFD 3 [0xAC, 5, 6]).budget.toNat ∧
      (code 0xFFFD 3 [0xAC, 5, 6]).pc = 0xFFFD) ∧
    (AtLoad (code 0xFFFE 2 [0xAD, 5]) .a .abs ∧ 2 ≤ (code 0xFFFE 2 [0xAD, 5]).budget.toNat ∧
      (code 0xFFFE 2 [0xAD, 5]).pc = 0xFFFE) ∧
    (AtLoad (code 0xFFFF 1 [0xAD]) .a .abs ∧ 1 ≤ (code 0xFFFF 1 [0xAD]).budget.toNat ∧
      (code 0xFFFF 1 [0xAD]).pc = 0xFFFF) := by
  and_intros <;> decide

/-- A completed load and a faulted one. -/
theorem witness_LoadsLeaveEverythingElseUnchanged :
    exec (.ldxImm 5) (code 0 2 [0xA2, 5]) = .next ((code 0 2 [0xA2, 5]).loaded .x 5 2 2) ∧
    exec (.ldxImm 5) (code 0 1 [0xA2, 5]) = .next ((code 0 1 [0xA2, 5]).faulted .budgetUnderrun 0) := by
  and_intros <;> first | decide | exact eq_next_of_nextIs (by decide)
theorem witness_ExecCompletesExactlyWhenItFits : (code 0xFFFD 2 [0x89, 5]).run = .running ∧
    (Instr.ldaImm 5).cost ≤ (code 0xFFFD 2 [0x89, 5]).budget.toNat ∧
    (code 0xFFFD 2 [0x89, 5]).pc.toNat + (Instr.ldaImm 5).length ≤ 0xFFFF := by decide

/-- The byte ranges of the flag rule at their ends, and a completed step. -/
theorem witness_FlagsAreThoseOfTheLoadedByte :
    1 ≤ (0x01 : Byte).toNat ∧ (0x7F : Byte).toNat ≤ 0x7F ∧ 0x80 ≤ (0x80 : Byte).toNat ∧
    stepWith Config.opcodes (code 0 2 [0x89, 0x80]) = .next ((code 0 2 [0x89, 0x80]).loaded .a 0x80 2 2) ∧
    ((code 0 2 [0x89, 0x80]).loaded .a 0x80 2 2).run = .running := by
  and_intros <;> first | decide | exact eq_next_of_nextIs (by decide)
theorem witness_RegistersAreWrittenByTheirLoadsOnly :
    stepWith Config.opcodes (code 0 3 [0xA4, 0x01]) = .next ((code 0 3 [0xA4, 0x01]).loaded .y 0x01 2 3) ∧
    ((code 0 3 [0xA4, 0x01]).loaded .y 0x01 2 3).reg .y ≠ (code 0 3 [0xA4, 0x01]).reg .y := by
  and_intros <;> first | decide | exact eq_next_of_nextIs (by decide)

/-- R168's rows for a load, at their boundary values; the others are witnessed above. -/
theorem witness_FirstFaultInCycleOrderIsReported :
    (AtLoad (code 0xFFFE 1 [0xA5, 5]) .a .zp ∧ (code 0xFFFE 1 [0xA5, 5]).pc = 0xFFFE ∧
      (code 0xFFFE 1 [0xA5, 5]).budget = 1) ∧
    (AtLoad (code 0xFFFE 2 [0xA5, 5]) .a .zp ∧ (code 0xFFFE 2 [0xA5, 5]).pc = 0xFFFE ∧
      2 ≤ (code 0xFFFE 2 [0xA5, 5]).budget.toNat) ∧
    (AtLoad (code 0xFFFD 2 [0xAE, 5, 6]) .x .abs ∧ (code 0xFFFD 2 [0xAE, 5, 6]).pc = 0xFFFD ∧
      (code 0xFFFD 2 [0xAE, 5, 6]).budget = 2) ∧
    (AtLoad (code 0xFFFD 3 [0xAE, 5, 6]) .x .abs ∧ (code 0xFFFD 3 [0xAE, 5, 6]).pc = 0xFFFD ∧
      3 ≤ (code 0xFFFD 3 [0xAE, 5, 6]).budget.toNat) ∧
    (AtLoad (code 0xFFFC 3 [0xAC, 5, 6]) .y .abs ∧
      (code 0xFFFC 3 [0xAC, 5, 6]).pc.toNat + Mode.abs.operandBytes ≤ 0xFFFE ∧
      (code 0xFFFC 3 [0xAC, 5, 6]).budget ≠ 0 ∧ (code 0xFFFC 3 [0xAC, 5, 6]).budget.toNat < Mode.abs.cost) ∧
    (AtLoad (code 0xFFFD 1 [0x89, 5]) .a .imm ∧
      (code 0xFFFD 1 [0x89, 5]).pc.toNat + Mode.imm.operandBytes ≤ 0xFFFE ∧
      (code 0xFFFD 1 [0x89, 5]).budget ≠ 0 ∧ (code 0xFFFD 1 [0x89, 5]).budget.toNat < Mode.imm.cost) := by
  and_intros <;> decide

/-- A fault of each kind. -/
theorem witness_FaultEntryIsPrecise :
    ((code 0 1 []).run = .running ∧ (code 0 1 []).fault = none ∧
      stepWith Config.opcodes (code 0 1 []) = .next ((code 0 1 []).faulted .illegalOpcode 0)) ∧
    stepWith otherMap (code 0 1 [0xEA]) = .next ((code 0 1 [0xEA]).faulted .unimplementedOpcode 0) ∧
    stepWith Config.opcodes (code 0 1 [0x89]) = .next ((code 0 1 [0x89]).faulted .budgetUnderrun 0) ∧
    stepWith Config.opcodes (code 0xFFFD 3 [0xAD]) = .next ((code 0xFFFD 3 [0xAD]).faulted .outOfRange 0) := by
  and_intros <;> first | decide | exact eq_next_of_nextIs (by decide)
theorem witness_UnderrunExactlyWhenBudgetIsShort :
    let s := code 0xFFFC 3 [0xAD, 5, 6]
    s.run = .running ∧ s.fault = none ∧ decodeWith Config.opcodes s.window = .ok (.ldaAbs 5 6) [] ∧
    s.pc.toNat + (Instr.ldaAbs 5 6).length ≤ 0xFFFF ∧
    1 ≤ s.budget.toNat ∧ s.budget.toNat < (Instr.ldaAbs 5 6).cost := by decide
theorem witness_AtMostOneFaultInARun :
    ((code 0 1 []).faulted .illegalOpcode 0).Inv ∧ ((code 0 1 []).faulted .illegalOpcode 0).fault ≠ none ∧
    (runWith Config.opcodes 1 (State.resetWith { resetInputs with budget := 1 })).fault ≠ none := by decide

/-- A step of the core that completes, in the state the statements about one step share as their witness. -/
abbrev CompletedStep : Prop :=
  stepWith Config.opcodes (code 0xFFFD 2 [0x89, 5]) = .next ((code 0xFFFD 2 [0x89, 5]).loaded .a 5 2 2) ∧
  ((code 0xFFFD 2 [0x89, 5]).loaded .a 5 2 2).run = .running

theorem witness_CompletedStepCostsExactly : CompletedStep :=
  ⟨eq_next_of_nextIs (by decide), by decide⟩
theorem witness_BudgetOnlyCountsDown :
    CompletedStep ∧ (code 0xFFFD 2 [0x89, 5]).run = .running ∧ (code 0xFFFD 2 [0x89, 5]).budget ≠ 0 :=
  ⟨witness_CompletedStepCostsExactly, by decide⟩
theorem witness_ProgramCounterOnlyMovesForward : CompletedStep := witness_CompletedStepCostsExactly
theorem witness_MemoryIsNeverWritten : CompletedStep := witness_CompletedStepCostsExactly
theorem witness_CycleLevelEngineAgreesWithTheStep : CompletedStep := witness_CompletedStepCostsExactly
theorem witness_RegistersAndFlagsInfluenceNothing :
    (code 0 2 [0x89, 5]).SameControl { code 0 2 [0x89, 5] with
      a := 9, x := 8, y := 7, sp := 0, flags := ⟨false, false, false, false, false, false, true⟩ } := by decide
theorem witness_EveryRunEnds : (runWith Config.opcodes 1 (code 0 3 [0x89, 5])).run = .running := by decide
theorem witness_StepKeepsTheInvariant :
    (code 0xFFFE 2 [0x89, 5]).Inv ∧
    step (code 0xFFFE 2 [0x89, 5]) = .next ((code 0xFFFE 2 [0x89, 5]).faulted .outOfRange 0) := by
  and_intros <;> first | decide | exact eq_next_of_nextIs (by decide)
theorem witness_ResetMeetsTheInvariant :
    { resetInputs with image := [(0, 0x89), (0xFFFF, 1)], budget := 2 }.WellFormed := by decide
theorem witness_ResetState : ∀ w ∈ [((1 : Addr), (7 : Byte))], w.1 ≠ 0xFFFF := by simp
theorem witness_LoadedImageHoldsTheLastWrite : ∀ w ∈ [((1 : Addr), (7 : Byte))], w.1 ≠ 0xFFFF := by simp
theorem witness_CanonicalMemoriesAreEqualWhenTheyReadTheSame :
    Memory.wf [(0, 0x89), (0xFFFF, 1)] = true ∧
    Memory.load [(0xFFFF, 1), (5, 7), (0, 0x89), (5, 0)] = [(0, 0x89), (0xFFFF, 1)] := by decide
theorem witness_PlacedWordRunsNext :
    (start 0xFFFC 0 []).mem.wf = true ∧ (start 0xFFFC 0 []).pc.toNat ≤ 0xFFFC ∧
    decodeTableWord 24 0x1234AD = some (.ldaAbs 0x34 0x12) := by decide
theorem witness_MemoryReferencesAreClassifiedByValue :
    (0xFF < 0x100) ∧ (0x100 ≤ 0x100 ∧ 0x100 < 0x10000) ∧ (0x100 ≤ 0xFFFF ∧ 0xFFFF < 0x10000) ∧ 0x10000 ≤ 0x10000 := by
  decide
/-- A line whose last byte lands just below the top, in an image that is not empty. -/
theorem witness_AssembledLineIsItsInstruction :
    Config.opcodes.WellFormed ∧ Memory.wf [(0, 0x89)] = true ∧
    Assembler.resolveLine ['L', 'D', 'A', ' ', '#', '7'] = .instr (.ldaImm 7) ∧
    Assembler.assembleLine Config.opcodes ['L', 'D', 'A', ' ', '#', '7'] ⟨0xFFFD, [(0, 0x89)], 2⟩ =
      .ok ⟨0xFFFF, [(0, 0x89), (0xFFFD, 0x89), (0xFFFE, 7)], 4⟩ := by decide
theorem witness_AssembledLineRunsAtItsRecordedCost :
    (0xFFFF : Nat) ≤ 0xFFFF ∧
    let s := start 0xFFFD 2 [(0, 0x89), (0xFFFD, 0x89), (0xFFFE, 7)]
    s.run = .running ∧ s.pc.toNat = 0xFFFD ∧ (Instr.ldaImm 7).cost ≤ s.budget.toNat := by decide

end Sys2Proof.Tests
end

/-! ## The state's invariants and frames (10_state.md)

Every statement of this part is about what one step, or one instruction, does to the state. `Effect` names the
four things a step can do, `step_effect` says once when each of them happens and that `PC`, `BUDGET`, `RUN` and
`MEM` alone decide which; the obligations are case splits over it. -/

namespace Sys2Proof.Machine

/-! ### Fields of the two states an instruction can leave -/

theorem reg_loaded (s : State) (r : Reg) (v : Byte) (length : Addr) (cost : Count) (r' : Reg) :
    (s.loaded r v length cost).reg r' = (s.setReg r v).reg r' := by
  cases r' <;> rfl

theorem reg_loaded_same (s : State) (r : Reg) (v : Byte) (length : Addr) (cost : Count) :
    (s.loaded r v length cost).reg r = v := by
  rw [reg_loaded, reg_setReg_same]

theorem reg_loaded_other (s : State) {r r' : Reg} (v : Byte) (length : Addr) (cost : Count) (h : r' ≠ r) :
    (s.loaded r v length cost).reg r' = s.reg r' := by
  rw [reg_loaded, reg_setReg_other s v h]

theorem reg_faulted (s : State) (f : FaultKind) (left : Count) (r : Reg) : (s.faulted f left).reg r = s.reg r := by
  cases r <;> rfl

/-- A completed instruction's `PC` is its length further on: no wrap (40_step_and_decode.md R104). -/
theorem pc_add_length_toNat {s : State} {i : Instr} (fits : s.pc.toNat + i.length ≤ 0xFFFF) :
    (s.pc + BitVec.ofNat 16 i.length).toNat = s.pc.toNat + i.length := by
  simp only [BitVec.toNat_add, BitVec.toNat_ofNat]
  omega

/-- A completed instruction's `BUDGET` is its cost lower: no wrap (10_state.md R36). -/
theorem budget_sub_cost_toNat {s : State} {i : Instr} (covered : i.cost ≤ s.budget.toNat) :
    (s.budget - BitVec.ofNat 32 i.cost).toNat + i.cost = s.budget.toNat := by
  have := s.budget.isLt
  simp only [BitVec.toNat_sub, BitVec.toNat_ofNat]
  omega

theorem length_eq_two_or_three (i : Instr) : i.length = 2 ∨ i.length = 3 := by
  have := Laws.mode_ranges i.mode
  unfold Instr.length
  omega

theorem two_le_cost (i : Instr) : 2 ≤ i.cost := by
  unfold Instr.cost
  cases i.mode <;> decide

theorem cost_le_four (i : Instr) : i.cost ≤ 4 := by
  unfold Instr.cost
  cases i.mode <;> decide

/-! ### What a step can do -/

/-- What one step does to the state it starts from. -/
inductive Effect
  /-- A halted core stays as it is (40_step_and_decode.md R101). -/
  | stay
  /-- The halt transition (R102). -/
  | halt
  /-- Fault entry, with the budget that is left (60_exceptions.md R170). -/
  | fault (f : FaultKind) (left : Count)
  /-- A completed load of an operand byte (40_step_and_decode.md R113). -/
  | load (i : Instr) (v : Byte)

/-- The state an effect leaves. -/
def Effect.apply : Effect → State → State
  | .stay, s => s
  | .halt, s => s.halt
  | .fault f left, s => s.faulted f left
  | .load i v, s => s.loaded i.dest v (BitVec.ofNat 16 i.length) (BitVec.ofNat 32 i.cost)

/-- The table of 60_exceptions.md R170: the budget a fault of an instruction begun in `s` leaves, and where
`OutOfRange` can happen. -/
def State.FaultLeaves (s : State) (left : Count) : FaultKind → Prop
  | .illegalOpcode => left.toNat + 1 = s.budget.toNat
  | .unimplementedOpcode => left.toNat + 1 = s.budget.toNat
  | .budgetUnderrun => left = 0 ∧ s.budget.toNat < 4
  | .outOfRange => 0xFFFD ≤ s.pc.toNat ∧ left.toNat + (0x10000 - s.pc.toNat) = s.budget.toNat

/-- A fault spends at most three cycles, and at least one where there is one. -/
theorem State.FaultLeaves.spends {s : State} {left : Count} {f : FaultKind} (h : s.FaultLeaves left f) :
    left.toNat ≤ s.budget.toNat ∧ s.budget.toNat ≤ left.toNat + 3 ∧
      (s.budget ≠ 0 → left.toNat < s.budget.toNat) := by
  have hp := s.pc.isLt
  rw [budget_ne_zero]
  cases f with
  | illegalOpcode | unimplementedOpcode =>
    have one : left.toNat + 1 = s.budget.toNat := h
    omega
  | budgetUnderrun =>
    obtain ⟨hl, _⟩ := h
    rw [budget_eq_zero] at hl
    omega
  | outOfRange =>
    obtain ⟨_, _⟩ := h
    omega

/-- When a step from `s` has an effect. -/
inductive Occurs (m : OpcodeMap) (s : State) : Effect → Prop
  | stay (halted : s.run = .halted) : Occurs m s .stay
  | halt (running : s.run = .running) (spent : s.budget = 0) : Occurs m s .halt
  | fault {f : FaultKind} {left : Count} (running : s.run = .running) (funded : s.budget ≠ 0)
      (leaves : s.FaultLeaves left f) : Occurs m s (.fault f left)
  | load (i : Instr) (rest : List Byte) (running : s.run = .running) (decoded : decodeWith m s.window = .ok i rest)
      (fits : s.pc.toNat + i.length ≤ 0xFFFF) (covered : i.cost ≤ s.budget.toNat) :
      Occurs m s (.load i (operandValue s i))

/-! ### States with the same control part -/

section
variable {s s' : State} (same : s.SameControl s')
include same

theorem State.SameControl.pc : s.pc = s'.pc := same.1
theorem State.SameControl.budget : s.budget = s'.budget := same.2.1
theorem State.SameControl.run : s.run = s'.run := same.2.2.1
theorem State.SameControl.fault : s.fault = s'.fault := same.2.2.2.1
theorem State.SameControl.mem : s.mem = s'.mem := same.2.2.2.2

theorem State.SameControl.window : s.window = s'.window := by
  rw [State.window, State.window, same.pc, same.mem]

theorem State.SameControl.operandValue (i : Instr) : operandValue s i = operandValue s' i := by
  cases i <;> simp only [Machine.operandValue, same.mem]

end

theorem sameControl_refl (s : State) : s.SameControl s := ⟨rfl, rfl, rfl, rfl, rfl⟩

/-! ### The instruction: `PC`, `BUDGET` and `MEM` decide its effect -/

/-- An instruction completes or faults, and does the same in every state with the same control part. -/
theorem outcome_effect (s : State) (i : Instr) :
    (s.pc.toNat + i.length ≤ 0xFFFF ∧ i.cost ≤ s.budget.toNat ∧
      ∀ s', s.SameControl s' → outcome s' i = (Effect.load i (operandValue s i)).apply s') ∨
    (∃ f left, s.FaultLeaves left f ∧ ∀ s', s.SameControl s' → outcome s' i = (Effect.fault f left).apply s') := by
  have hb := s.budget.isLt
  have hp := s.pc.isLt
  have hl := length_eq_two_or_three i
  have hc := cost_le_four i
  by_cases fits : s.pc.toNat + i.length ≤ 0xFFFF
  · by_cases covered : i.cost ≤ s.budget.toNat
    · refine .inl ⟨fits, covered, fun s' same => ?_⟩
      rw [outcome, ← same.pc, ← same.budget, if_pos fits, if_pos covered, ← same.operandValue i]
      rfl
    · refine .inr ⟨.budgetUnderrun, 0, ⟨rfl, by omega⟩, fun s' same => ?_⟩
      rw [outcome, ← same.pc, ← same.budget, if_pos fits, if_neg covered]
      rfl
  · by_cases reaches : 0x10000 - s.pc.toNat ≤ s.budget.toNat
    · refine .inr ⟨.outOfRange, s.budget - BitVec.ofNat 32 (0x10000 - s.pc.toNat), ⟨by omega, ?_⟩,
        fun s' same => ?_⟩
      · simp only [BitVec.toNat_sub, BitVec.toNat_ofNat]
        omega
      · rw [outcome, ← same.pc, ← same.budget, if_neg fits, if_pos reaches]
        rfl
    · refine .inr ⟨.budgetUnderrun, 0, ⟨rfl, by omega⟩, fun s' same => ?_⟩
      rw [outcome, ← same.pc, ← same.budget, if_neg fits, if_neg reaches]
      rfl

/-! ### The fetch, one lemma for each answer of the decoder -/

section
variable {m : OpcodeMap} {s : State} (funded : s.budget ≠ 0)
include funded

theorem fetch_top (top : s.pc = 0xFFFF) : fetch m s = .settled (s.faulted .outOfRange (s.budget - 1)) := by
  rw [fetch, consume_top funded top]
  rfl

variable (below : s.pc ≠ 0xFFFF)
include below

theorem fetch_decoded {i : Instr} {rest : List Byte} (h : decodeWith m s.window = .ok i rest) :
    fetch m s = .instr i := by
  rw [fetch, consume_done funded below, h]

theorem fetch_illegal {op : Byte} (h : decodeWith m s.window = .bad (.illegalOpcode op)) :
    fetch m s = .settled (s.faulted .illegalOpcode (s.budget - 1)) := by
  rw [fetch, consume_done funded below, h]
  rfl

theorem fetch_unimplemented {op : Byte} (h : decodeWith m s.window = .bad (.unimplementedOpcode op)) :
    fetch m s = .settled (s.faulted .unimplementedOpcode (s.budget - 1)) := by
  rw [fetch, consume_done funded below, h]
  rfl

theorem fetch_truncated (h : decodeWith m s.window = .bad .truncated) : fetch m s = .settled s.cutShort := by
  rw [fetch, consume_done funded below, h]

end

/-- What decoding can answer where there is an opcode byte: a rejection of that byte; an instruction with its operand
bytes taken from those that follow; or a truncation, where fewer than two follow. -/
theorem decodeWith_cons_cases (m : OpcodeMap) (op : Byte) (bytes : List Byte) :
    decodeWith m (op :: bytes) = .bad (.illegalOpcode op) ∨
    decodeWith m (op :: bytes) = .bad (.unimplementedOpcode op) ∨
    (∃ i rest, bytes = i.operands ++ rest ∧ decodeWith m (op :: bytes) = .ok i rest) ∨
    (bytes.length < 2 ∧ decodeWith m (op :: bytes) = .bad .truncated) := by
  rw [decodeWith]
  cases controlRom m op with
  | illegal => exact .inl rfl
  | unimplemented => exact .inr (.inl rfl)
  | load r mode =>
    obtain ⟨i, rest, _, _, taken, hd⟩ | ⟨short, hd⟩ := decodeOperands_cases r mode bytes
    · exact .inr (.inr (.inl ⟨i, rest, taken, hd⟩))
    · have : mode.operandBytes ≤ 2 := by cases mode <;> decide
      exact .inr (.inr (.inr ⟨by omega, hd⟩))

/-- There is always a byte at `PC` to decode. -/
theorem decodeWith_window_ne_noBytes (m : OpcodeMap) (s : State) : decodeWith m s.window ≠ .bad .noBytes := by
  rw [window_eq_cons]
  obtain h | h | ⟨i, rest, _, h⟩ | ⟨_, h⟩ :=
    decodeWith_cons_cases m (s.mem.read s.pc) (s.mem.bytesFrom 2 (s.pc.toNat + 1)) <;> rw [h] <;> nofun

/-- An instruction is cut short only in the last two bytes of memory. -/
theorem pc_of_truncated {m : OpcodeMap} {s : State} (h : decodeWith m s.window = .bad .truncated) :
    0xFFFE ≤ s.pc.toNat := by
  rw [window_eq_cons] at h
  obtain h' | h' | ⟨i, rest, _, h'⟩ | ⟨short, _⟩ :=
    decodeWith_cons_cases m (s.mem.read s.pc) (s.mem.bytesFrom 2 (s.pc.toNat + 1))
  · cases h'.symm.trans h
  · cases h'.symm.trans h
  · cases h'.symm.trans h
  · rw [bytesFrom_length] at short
    split at short <;> omega

/-- What an instruction cut short by the top of memory leaves, in every state with the same control part. -/
theorem cutShort_effect {s : State} (hp : s.pc.toNat = 0xFFFE) :
    ∃ f left, s.FaultLeaves left f ∧ ∀ s', s.SameControl s' → s'.cutShort = s'.faulted f left := by
  have hb := s.budget.isLt
  by_cases two : 2 ≤ s.budget.toNat
  · refine ⟨.outOfRange, s.budget - 2, ⟨by omega, ?_⟩, fun s' same => ?_⟩
    · simp only [BitVec.toNat_sub, BitVec.reduceToNat]
      omega
    · rw [cutShort_eq (same.pc ▸ hp), ← same.budget, if_pos two]
  · refine ⟨.budgetUnderrun, 0, ⟨rfl, by omega⟩, fun s' same => ?_⟩
    rw [cutShort_eq (same.pc ▸ hp), ← same.budget, if_neg two]

/-- A fetch finds an instruction or faults, and does the same in every state with the same control part. -/
theorem fetch_effect (m : OpcodeMap) {s : State} (funded : s.budget ≠ 0) :
    (∃ i rest, decodeWith m s.window = .ok i rest ∧ ∀ s', s.SameControl s' → fetch m s' = .instr i) ∨
    (∃ f left, s.FaultLeaves left f ∧ ∀ s', s.SameControl s' → fetch m s' = .settled (s'.faulted f left)) := by
  have pred := budget_pred_toNat funded
  have pos := budget_ne_zero.mp funded
  have funded' {s' : State} (h : s.SameControl s') : s'.budget ≠ 0 := h.budget ▸ funded
  by_cases top : s.pc = 0xFFFF
  · refine .inr ⟨.outOfRange, s.budget - 1, ⟨?_, ?_⟩, fun s' same => ?_⟩
    · rw [top]; decide
    · rw [top, pred]; simp only [BitVec.reduceToNat]; omega
    · rw [fetch_top (funded' same) (same.pc ▸ top), ← same.budget]
  have below' {s' : State} (h : s.SameControl s') : s'.pc ≠ 0xFFFF := h.pc ▸ top
  cases hd : decodeWith m s.window with
  | ok i rest =>
    exact .inl ⟨i, rest, rfl, fun s' same =>
      fetch_decoded (funded' same) (below' same) (same.window ▸ hd)⟩
  | bad e =>
    right
    cases e with
    | noBytes => exact absurd hd (decodeWith_window_ne_noBytes m s)
    | truncated =>
      have hp := pc_of_truncated hd
      have := s.pc.isLt
      rw [pc_eq_top] at top
      obtain ⟨f, left, leaves, cut⟩ := cutShort_effect (s := s) (by omega)
      refine ⟨f, left, leaves, fun s' same => ?_⟩
      rw [fetch_truncated (funded' same) (below' same) (same.window ▸ hd), cut s' same]
    | illegalOpcode op =>
      refine ⟨.illegalOpcode, s.budget - 1, show _ = _ by omega, fun s' same => ?_⟩
      rw [fetch_illegal (funded' same) (below' same) (same.window ▸ hd), ← same.budget]
    | unimplementedOpcode op =>
      refine ⟨.unimplementedOpcode, s.budget - 1, show _ = _ by omega, fun s' same => ?_⟩
      rw [fetch_unimplemented (funded' same) (below' same) (same.window ▸ hd), ← same.budget]

/-! ### The step -/

theorem stepWith_of_halted (m : OpcodeMap) {s : State} (halted : s.run = .halted) : stepWith m s = .next s := by
  simp only [stepWith, boundary, halted]

theorem stepWith_of_spent (m : OpcodeMap) {s : State} (running : s.run = .running) (spent : s.budget = 0) :
    stepWith m s = .next s.halt := by
  simp only [stepWith, boundary, running, if_pos spent]

theorem stepWith_of_settled {m : OpcodeMap} {s t : State} (running : s.run = .running) (funded : s.budget ≠ 0)
    (h : fetch m s = .settled t) : stepWith m s = .next t := by
  simp only [stepWith, boundary, running, if_neg funded, h]

theorem stepWith_of_instr {m : OpcodeMap} {s : State} {i : Instr} (running : s.run = .running)
    (funded : s.budget ≠ 0) (h : fetch m s = .instr i) : stepWith m s = .next (outcome s i) := by
  simp only [stepWith, boundary, running, if_neg funded, h, exec_eq]

/-- Every step has one of the four effects, and the same one in every state with the same `PC`, `BUDGET`, `RUN`,
`FAULT` and `MEM`: no step reads a register, a flag or `SP` (10_state.md R22, R33). -/
theorem step_effect (m : OpcodeMap) (s : State) :
    ∃ e, Occurs m s e ∧ ∀ s', s.SameControl s' → stepWith m s' = .next (e.apply s') := by
  cases running : s.run with
  | halted => exact ⟨.stay, .stay running, fun s' same => stepWith_of_halted m (same.run ▸ running)⟩
  | running =>
    by_cases spent : s.budget = 0
    · exact ⟨.halt, .halt running spent, fun s' same =>
        stepWith_of_spent m (same.run ▸ running) (same.budget ▸ spent)⟩
    have running' {s' : State} (h : s.SameControl s') : s'.run = .running := h.run ▸ running
    have funded' {s' : State} (h : s.SameControl s') : s'.budget ≠ 0 := h.budget ▸ spent
    obtain ⟨i, rest, decoded, hfetch⟩ | ⟨f, left, leaves, hfetch⟩ := fetch_effect m spent
    · have hstep {s'} (h : s.SameControl s') := stepWith_of_instr (running' h) (funded' h) (hfetch s' h)
      obtain ⟨fits, covered, he⟩ | ⟨f, left, leaves, he⟩ := outcome_effect s i
      · exact ⟨_, .load i rest running decoded fits covered, fun s' same => he s' same ▸ hstep same⟩
      · exact ⟨_, .fault running spent leaves, fun s' same => he s' same ▸ hstep same⟩
    · exact ⟨_, .fault running spent leaves, fun s' same =>
        stepWith_of_settled (running' same) (funded' same) (hfetch s' same)⟩

/-- The next state is that of an effect that occurs. -/
theorem effect_of_step {m : OpcodeMap} {s t : State} (h : stepWith m s = .next t) :
    ∃ e, Occurs m s e ∧ t = e.apply s := by
  obtain ⟨e, occurs, he⟩ := step_effect m s
  rw [he s (sameControl_refl s)] at h
  injection h with h
  exact ⟨e, occurs, h.symm⟩

/-! ### What an effect does to each part of the state -/

theorem apply_sameControl (e : Effect) {s s' : State} (h : s.SameControl s') :
    (e.apply s).SameControl (e.apply s') := by
  obtain ⟨hpc, hbudget, hrun, hfault, hmem⟩ := h
  cases e with
  | stay => exact ⟨hpc, hbudget, hrun, hfault, hmem⟩
  | halt => exact ⟨hpc, hbudget, rfl, hfault, hmem⟩
  | fault f left => exact ⟨hpc, rfl, rfl, rfl, hmem⟩
  | load i v =>
    exact ⟨congrArg (· + BitVec.ofNat 16 i.length) hpc, congrArg (· - BitVec.ofNat 32 i.cost) hbudget,
      (setReg_run s _ _).trans (hrun.trans (setReg_run s' _ _).symm),
      (setReg_fault s _ _).trans (hfault.trans (setReg_fault s' _ _).symm),
      (setReg_mem s _ _).trans (hmem.trans (setReg_mem s' _ _).symm)⟩

/-- An effect leaves a register alone, or writes a byte that does not depend on what is there. -/
theorem apply_reg (e : Effect) (r : Reg) :
    (∀ s, (e.apply s).reg r = s.reg r) ∨ ∃ v, ∀ s, (e.apply s).reg r = v := by
  cases e with
  | stay => exact .inl fun _ => rfl
  | halt => exact .inl fun s => halt_reg s r
  | fault f left => exact .inl fun s => reg_faulted s f left r
  | load i v =>
    by_cases h : r = i.dest
    · exact .inr ⟨v, fun s => h ▸ reg_loaded_same s i.dest v _ _⟩
    · exact .inl fun s => reg_loaded_other s v _ _ h

/-- An effect leaves all flags alone, or writes `N` and `Z` alone, whatever they were (10_state.md R31, R32). -/
theorem apply_flags (e : Effect) :
    (∀ s, (e.apply s).flags = s.flags) ∨ ∃ n z, ∀ s, (e.apply s).flags = { s.flags with n := n, z := z } := by
  cases e with
  | stay | halt | fault f left => exact .inl fun _ => rfl
  | load i v => exact .inr ⟨v.getLsbD 7, v == 0, fun _ => rfl⟩

theorem apply_sp (e : Effect) (s : State) : (e.apply s).sp = s.sp := by
  cases e with
  | stay | halt | fault f left => rfl
  | load i v => exact setReg_sp s i.dest v

theorem apply_mem (e : Effect) (s : State) : (e.apply s).mem = s.mem := by
  cases e with
  | stay | halt | fault f left => rfl
  | load i v => exact setReg_mem s i.dest v

/-! ### Inductions over the steps of a run -/

/-- What every pair of steps keeps of two states, two runs keep for any number of steps. -/
theorem runWith_keeps_pair {m : OpcodeMap} {R : State → State → Prop}
    (keeps : ∀ s s' t t', R s s' → stepWith m s = .next t → stepWith m s' = .next t' → R t t')
    (k : Nat) {s s' : State} (h : R s s') : R (runWith m k s) (runWith m k s') := by
  induction k generalizing s s' with
  | zero => exact h
  | succ k ih =>
    obtain ⟨t, ht⟩ := step_next m s
    obtain ⟨t', ht'⟩ := step_next m s'
    simp only [runWith, ht, ht']
    exact ih (keeps s s' t t' h ht ht')

/-- What every step keeps, a run keeps for any number of steps. -/
theorem runWith_keeps {m : OpcodeMap} {P : State → Prop} (keeps : ∀ s t, P s → stepWith m s = .next t → P t)
    (k : Nat) {s : State} (h : P s) : P (runWith m k s) :=
  runWith_keeps_pair (R := fun u _ => P u) (fun u _ v _ hu hv _ => keeps u v hu hv) k (s' := s) h

/-! ### Nothing depends on the registers and flags -/

/-- How two runs that began in `s₀` and `s₀'` stand to each other: the same control part, and every register, and
`N` and `Z`, the same in both or, in both, as at the start. -/
def AgreeOrUntouched (s₀ s₀' s s' : State) : Prop :=
  s.SameControl s' ∧
  (∀ r, s.reg r = s'.reg r ∨ (s.reg r = s₀.reg r ∧ s'.reg r = s₀'.reg r)) ∧
  ((s.flags.n = s'.flags.n ∧ s.flags.z = s'.flags.z) ∨ (s.flags = s₀.flags ∧ s'.flags = s₀'.flags))

theorem agreeOrUntouched_start {s s' : State} (h : s.SameControl s') : AgreeOrUntouched s s' s s' :=
  ⟨h, fun _ => .inr ⟨rfl, rfl⟩, .inr ⟨rfl, rfl⟩⟩

/-- The commuting diagram of one step: both states step with the same effect. -/
theorem step_keeps_agreeOrUntouched {m : OpcodeMap} {s₀ s₀' s s' t t' : State} (h : AgreeOrUntouched s₀ s₀' s s')
    (ht : stepWith m s = .next t) (ht' : stepWith m s' = .next t') : AgreeOrUntouched s₀ s₀' t t' := by
  obtain ⟨same, hreg, hflags⟩ := h
  obtain ⟨e, -, he⟩ := step_effect m s
  rw [he s (sameControl_refl s)] at ht
  rw [he s' same] at ht'
  injection ht with ht
  injection ht' with ht'
  subst ht ht'
  refine ⟨apply_sameControl e same, fun r => ?_, ?_⟩
  · obtain keep | ⟨v, write⟩ := apply_reg e r
    · rw [keep, keep]
      exact hreg r
    · exact .inl (by rw [write, write])
  · obtain keep | ⟨n, z, write⟩ := apply_flags e
    · rw [keep, keep]
      exact hflags
    · exact .inl (by rw [write, write]; exact ⟨rfl, rfl⟩)

/-- Settles O29: two runs with the same control part take the same effects, step by step. -/
theorem registersAndFlagsInfluenceNothing : Obligations.RegistersAndFlagsInfluenceNothing := by
  intro m k s s' same
  exact runWith_keeps_pair (R := AgreeOrUntouched s s')
    (fun _ _ _ _ h ht ht' => step_keeps_agreeOrUntouched h ht ht') k (agreeOrUntouched_start same)

/-! ### The invariant -/

theorem step_keeps_inv {m : OpcodeMap} {s t : State} (inv : s.Inv) (h : stepWith m s = .next t) : t.Inv := by
  obtain ⟨wf, faulted, normal, underrun, range⟩ := inv
  obtain ⟨e, occurs, rfl⟩ := effect_of_step h
  cases occurs with
  | stay halted => exact ⟨wf, faulted, normal, underrun, range⟩
  | halt running spent => exact ⟨wf, fun _ => rfl, fun _ => spent, fun _ => spent, range⟩
  | fault running funded leaves =>
    refine ⟨wf, fun _ => rfl, fun ⟨_, clear⟩ => (nomatch clear), fun hf => ?_, fun hf => ?_⟩
    · cases hf
      exact leaves.1
    · cases hf
      exact leaves.1
  | load i rest running decoded fits covered =>
    have running' : ((Effect.load i (operandValue s i)).apply s).run = .running := (setReg_run s _ _).trans running
    have clear : s.fault = none := Decidable.byContradiction fun hf => nomatch running.symm.trans (faulted hf)
    have clear' : ((Effect.load i (operandValue s i)).apply s).fault = none := (setReg_fault s _ _).trans clear
    refine ⟨by rw [apply_mem]; exact wf, fun hf => absurd clear' hf, fun ⟨halted, _⟩ => ?_, fun hf => ?_, fun hf => ?_⟩
    · cases running'.symm.trans halted
    · cases clear'.symm.trans hf
    · cases clear'.symm.trans hf

/-- Settles O31: a fault leaves what the table of R170 says, and a load completes only in a core without a fault. -/
theorem stepKeepsTheInvariant : Obligations.StepKeepsTheInvariant :=
  ⟨fun _ _ _ => step_keeps_inv, fun _ _ => step_keeps_inv⟩

/-! ### The frame of the instructions -/

/-- Settles O16: an instruction ends in a completed load or in a fault, and each leaves alone what it must. -/
theorem loadsLeaveEverythingElseUnchanged : Obligations.LoadsLeaveEverythingElseUnchanged := by
  intro i s t h
  rw [exec_eq] at h
  injection h with h
  subst h
  obtain ⟨_, _, he⟩ | ⟨f, left, _, he⟩ := outcome_effect s i <;> rw [he s (sameControl_refl s)]
  · refine ⟨fun r hr => reg_loaded_other s _ _ _ hr, apply_sp _ s, rfl, rfl, rfl, rfl, rfl,
      fun a => by rw [apply_mem], .inl ⟨?_, ?_, reg_loaded_same s _ _ _ _, rfl, rfl⟩⟩
    · exact setReg_run s i.dest _
    · exact setReg_fault s i.dest _
  · exact ⟨fun r _ => reg_faulted s f left r, rfl, rfl, rfl, rfl, rfl, rfl, fun _ => rfl,
      .inr ⟨rfl, ⟨f, rfl⟩, reg_faulted s f left i.dest, rfl, rfl⟩⟩

/-! ### What a load writes is a byte of memory -/

/-- The operand byte stands in the instruction, or is read from memory. -/
theorem operandValue_mem_operands_or_read (s : State) (i : Instr) :
    operandValue s i ∈ i.operands ∨ ∃ a : Addr, operandValue s i = s.mem.read a := by
  cases i with
  | ldaImm v | ldxImm v | ldyImm v => exact .inl (List.mem_singleton.mpr rfl)
  | ldaZp a | ldxZp a | ldyZp a => exact .inr ⟨zext16 a, rfl⟩
  | ldaAbs lo hi | ldxAbs lo hi | ldyAbs lo hi => exact .inr ⟨address lo hi, rfl⟩

/-- The operand bytes of a decoded instruction are among the bytes it was decoded from. -/
theorem operands_subset_of_decoded {m : OpcodeMap} {op : Byte} {bytes rest : List Byte} {i : Instr}
    (h : decodeWith m (op :: bytes) = .ok i rest) : i.operands ⊆ bytes := by
  obtain h' | h' | ⟨j, tail, taken, h'⟩ | ⟨_, h'⟩ := decodeWith_cons_cases m op bytes <;> cases h'.symm.trans h
  exact taken ▸ List.subset_append_left _ _

theorem read_of_mem_bytesFrom {mem : Memory} {k a : Nat} {b : Byte} (h : b ∈ mem.bytesFrom k a) :
    ∃ addr : Addr, b = mem.read addr := by
  induction k generalizing a with
  | zero => cases h
  | succ k ih =>
    rw [Memory.bytesFrom] at h
    split at h
    next ha =>
      obtain rfl | h := List.mem_cons.mp h
      · exact ⟨BitVec.ofNat 16 a, by rw [Memory.read, BitVec.toNat_ofNat, Nat.mod_eq_of_lt ha]⟩
      · exact ih h
    next => cases h

/-- The operand byte of an instruction decoded at `PC` is a byte of memory (10_state.md R21). -/
theorem operandValue_eq_read_of_decoded {m : OpcodeMap} {s : State} {i : Instr} {rest : List Byte}
    (h : decodeWith m s.window = .ok i rest) : ∃ a : Addr, operandValue s i = s.mem.read a := by
  obtain hmem | hread := operandValue_mem_operands_or_read s i
  · rw [window_eq_cons] at h
    exact read_of_mem_bytesFrom (operands_subset_of_decoded h hmem)
  · exact hread

/-- A step completes the load decoded at `PC`, and its destination and flags are those of the operand byte; or it
leaves the core halted, with every register and flag as it was. -/
theorem step_writes {m : OpcodeMap} {s t : State} (h : stepWith m s = .next t) :
    (∃ i rest, t.run = .running ∧ decodeWith m s.window = .ok i rest ∧ t.reg i.dest = operandValue s i ∧
      (∀ r, r ≠ i.dest → t.reg r = s.reg r) ∧ (∃ a : Addr, t.reg i.dest = s.mem.read a) ∧
      t.flags = { s.flags with n := (t.reg i.dest).getLsbD 7, z := t.reg i.dest == 0 }) ∨
    (t.run = .halted ∧ (∀ r, t.reg r = s.reg r) ∧ t.flags = s.flags) := by
  obtain ⟨e, occurs, rfl⟩ := effect_of_step h
  cases occurs with
  | stay halted => exact .inr ⟨halted, fun _ => rfl, rfl⟩
  | halt running spent => exact .inr ⟨rfl, halt_reg s, rfl⟩
  | fault running funded leaves => exact .inr ⟨rfl, reg_faulted s _ _, rfl⟩
  | load i rest running decoded fits covered =>
    have hreg : ((Effect.load i (operandValue s i)).apply s).reg i.dest = operandValue s i :=
      reg_loaded_same s _ _ _ _
    refine .inl ⟨i, rest, (setReg_run s _ _).trans running, decoded, hreg, fun r => reg_loaded_other s _ _ _, ?_, ?_⟩
    · rw [hreg]
      exact operandValue_eq_read_of_decoded decoded
    · rw [hreg]
      rfl

/-- Settles O19: only a completed load writes a register, and it writes its own. -/
theorem registersAreWrittenByTheirLoadsOnly : Obligations.RegistersAreWrittenByTheirLoadsOnly := by
  constructor
  · intro m s t r h changed
    obtain ⟨i, rest, _, decoded, value, others, read, flags⟩ | ⟨_, regs, _⟩ := step_writes h
    · have hr : i.dest = r := Decidable.byContradiction fun hne => changed (others r (Ne.symm hne))
      subst hr
      exact ⟨i, rest, decoded, rfl, value, read, flags⟩
    · exact absurd (regs r) changed
  · intro m s t h
    obtain ⟨i, rest, running, decoded, value, _, read, flags⟩ | ⟨halted, regs, flags⟩ := step_writes h
    · exact ⟨fun _ => ⟨i, rest, decoded, value, read, flags⟩, fun halted => nomatch running.symm.trans halted⟩
    · exact ⟨fun running => (nomatch running.symm.trans halted), fun _ => ⟨regs, flags⟩⟩

/-! ### `BUDGET` and `PC` -/

/-- Settles O25: a fault spends one to three cycles, a load its cost. -/
theorem budgetOnlyCountsDown : Obligations.BudgetOnlyCountsDown := by
  intro m s t h
  obtain ⟨e, occurs, rfl⟩ := effect_of_step h
  cases occurs with
  | stay halted =>
    exact ⟨Nat.le_refl _, Nat.le_add_right _ _, fun running => nomatch running.symm.trans halted⟩
  | halt running spent => exact ⟨Nat.le_refl _, Nat.le_add_right _ _, fun _ funded => absurd spent funded⟩
  | fault running funded leaves =>
    obtain ⟨le, three, lt⟩ := leaves.spends
    exact ⟨le, Nat.le_succ_of_le three, fun _ => lt⟩
  | load i rest running decoded fits covered =>
    have := budget_sub_cost_toNat covered
    have := two_le_cost i
    have := cost_le_four i
    simp only [Effect.apply]
    omega

/-- Settles O26: only a completed load moves `PC`, by its length, and it lies below the top of memory. -/
theorem programCounterOnlyMovesForward : Obligations.ProgramCounterOnlyMovesForward := by
  intro m s t h
  obtain ⟨e, occurs, rfl⟩ := effect_of_step h
  cases occurs with
  | stay halted => exact .inl rfl
  | halt running spent => exact .inl rfl
  | fault running funded leaves => exact .inl rfl
  | load i rest running decoded fits covered =>
    refine .inr ⟨(setReg_run s _ _).trans running, ?_⟩
    simp only [Effect.apply, pc_add_length_toNat fits]
    obtain hl | hl := length_eq_two_or_three i <;> rw [hl]
    · exact .inl rfl
    · exact .inr rfl

/-! ### The inert state -/

/-- `SP` and the five flags no load writes are the same in both states. -/
def SameInert (s t : State) : Prop :=
  t.sp = s.sp ∧ t.flags.c = s.flags.c ∧ t.flags.i = s.flags.i ∧ t.flags.d = s.flags.d ∧ t.flags.b = s.flags.b ∧
    t.flags.v = s.flags.v

theorem sameInert_refl (s : State) : SameInert s s := ⟨rfl, rfl, rfl, rfl, rfl, rfl⟩

theorem apply_sameInert (e : Effect) {s₀ s : State} (h : SameInert s₀ s) : SameInert s₀ (e.apply s) := by
  unfold SameInert
  rw [apply_sp]
  obtain keep | ⟨n, z, write⟩ := apply_flags e
  · rw [keep]
    exact h
  · rw [write]
    exact h

/-- Settles O28: no effect writes the inert state. -/
theorem inertStateIsNeverWritten : Obligations.InertStateIsNeverWritten := by
  intro m k s
  refine runWith_keeps (P := SameInert s) (fun u t hu h => ?_) k (sameInert_refl s)
  obtain ⟨e, -, rfl⟩ := effect_of_step h
  exact apply_sameInert e hu

end Sys2Proof.Machine

/-! ### The canonical form of a memory is unique -/

namespace Sys2Proof

/-- A listed cell is told by reading: no canonical memory that starts above it reads the same there. -/
theorem Memory.le_of_lookup_eq {lo lo' k : Nat} {v : Byte} {rest mem' : Memory}
    (hw : Memory.wfFrom lo ((k, v) :: rest) = true) (hw' : Memory.wfFrom lo' mem' = true)
    (same : Memory.lookup ((k, v) :: rest) k = Memory.lookup mem' k) : lo' ≤ k := by
  obtain ⟨_, _, listed, _⟩ := Memory.wfFrom_cons.mp hw
  refine Nat.le_of_not_lt fun below => listed ?_
  rwa [Memory.lookup_cons, if_pos rfl, Memory.lookup_below hw' below] at same

/-- The lowest cell of each memory is read off the other, so the first cells are equal, and then the rest. -/
theorem Memory.eq_of_lookup_eq {lo lo' : Nat} {mem mem' : Memory} (hw : Memory.wfFrom lo mem = true)
    (hw' : Memory.wfFrom lo' mem' = true) (same : ∀ a < 65536, Memory.lookup mem a = Memory.lookup mem' a) :
    mem = mem' := by
  induction mem generalizing lo lo' mem' with
  | nil =>
    cases mem' with
    | nil => rfl
    | cons c' rest' =>
      obtain ⟨k', v'⟩ := c'
      obtain ⟨_, top, _, _⟩ := Memory.wfFrom_cons.mp hw'
      have := Memory.le_of_lookup_eq (lo' := k' + 1) hw' (mem' := []) rfl (same k' top).symm
      omega
  | cons c rest ih =>
    obtain ⟨k, v⟩ := c
    obtain ⟨_, top, _, hrest⟩ := Memory.wfFrom_cons.mp hw
    cases mem' with
    | nil =>
      have := Memory.le_of_lookup_eq (lo' := k + 1) hw (mem' := []) rfl (same k top)
      omega
    | cons c' rest' =>
      obtain ⟨k', v'⟩ := c'
      obtain ⟨_, top', listed', hrest'⟩ := Memory.wfFrom_cons.mp hw'
      have from_k : Memory.wfFrom k ((k, v) :: rest) = true := by
        rw [Memory.wfFrom_cons] at hw ⊢
        exact ⟨Nat.le_refl k, hw.2⟩
      have from_k' : Memory.wfFrom k' ((k', v') :: rest') = true :=
        Memory.wfFrom_cons.mpr ⟨Nat.le_refl k', top', listed', hrest'⟩
      have hk : k = k' := Nat.le_antisymm (Memory.le_of_lookup_eq hw' from_k (same k' top').symm)
        (Memory.le_of_lookup_eq hw from_k' (same k top))
      subst hk
      have hv : v = v' := by simpa only [Memory.lookup_cons, if_true] using same k top
      subst hv
      congr 1
      refine ih hrest hrest' fun a ha => ?_
      by_cases hak : a = k
      · rw [Memory.lookup_below hrest (by omega), Memory.lookup_below hrest' (by omega)]
      · simpa only [Memory.lookup_cons, if_neg hak] using same a ha

/-- Settles O35, by induction on the list of cells. -/
theorem canonicalMemoriesAreEqualWhenTheyReadTheSame : Obligations.CanonicalMemoriesAreEqualWhenTheyReadTheSame := by
  intro mem mem' hw hw' same
  refine Memory.eq_of_lookup_eq hw hw' fun a ha => ?_
  have h := same (BitVec.ofNat 16 a)
  rwa [Memory.read, Memory.read, BitVec.toNat_ofNat, Nat.mod_eq_of_lt ha] at h

end Sys2Proof

/-! ## Memory and effective addresses (20_memory.md) -/

namespace Sys2Proof.Machine

/-! ### Effective addresses -/

/-- Absolute addresses are little-endian (30_encoding.md R76). -/
theorem address_toNat (lo hi : Byte) : (address lo hi).toNat = hi.toNat * 256 + lo.toNat := by
  rw [address, BitVec.toNat_append, ← Nat.shiftLeft_add_eq_or_of_lt lo.isLt, Nat.shiftLeft_eq]

/-- Zero-page addresses are unsigned (20_memory.md R50). -/
theorem zext16_toNat (a : Byte) : (zext16 a).toNat = a.toNat :=
  BitVec.toNat_setWidth_of_le (by decide)

/-- The two bytes an address is made of are its remainder and its quotient by 256. -/
theorem address_of_bytes (ea : Addr) : address (BitVec.ofNat 8 ea.toNat) (BitVec.ofNat 8 (ea.toNat / 256)) = ea := by
  have hea := ea.isLt
  apply BitVec.eq_of_toNat_eq
  rw [address_toNat, BitVec.toNat_ofNat, BitVec.toNat_ofNat]
  omega

/-- Settles O5: the low and high byte of any address are operand bytes that reach it. -/
theorem effectiveAddressesOfOperandBytes : Obligations.EffectiveAddressesOfOperandBytes :=
  ⟨address_toNat, zext16_toNat, fun ea => ⟨_, _, address_of_bytes ea⟩⟩

/-! ### No step writes memory -/

theorem step_mem {m : OpcodeMap} {s t : State} (h : stepWith m s = .next t) : t.mem = s.mem := by
  obtain ⟨e, -, rfl⟩ := effect_of_step h
  exact apply_mem e s

theorem runWith_mem (m : OpcodeMap) (k : Nat) (s : State) : (runWith m k s).mem = s.mem :=
  runWith_keeps (P := fun t => t.mem = s.mem) (fun _ _ hu h => (step_mem h).trans hu) k rfl

/-- Settles O27: no effect of a step writes memory, so a run keeps the image that reset loads. -/
theorem memoryIsNeverWritten : Obligations.MemoryIsNeverWritten := by
  refine ⟨fun _ _ _ => step_mem, fun m r k a => ?_⟩
  rw [runWith_mem, resetWith_mem]

end Sys2Proof.Machine

/-! ## Encoding (30_encoding.md)

The decoder and the encoder are inverse to each other, at every well-formed opcode map; the bytes no row of the control
ROM stands for fault; and the assembler leaves an instruction's bytes in the image where the decoder finds them. -/

namespace Sys2Proof

/-! ### Decoding and encoding -/

theorem default_wellFormed : Config.opcodes.WellFormed := by decide

theorem encodeWith_length (m : OpcodeMap) (i : Instr) : (encodeWith m i).length = i.length := by
  cases i <;> rfl

/-- Operand bytes decode to the operands of the instruction they were taken from. -/
theorem decodeOperands_operands (i : Instr) (rest : List Byte) :
    decodeOperands i.dest i.mode (i.operands ++ rest) = .ok i rest := by
  cases i <;> rfl

theorem decodeWith_encodeWith {m : OpcodeMap} (wf : m.WellFormed) (i : Instr) (rest : List Byte) :
    decodeWith m (encodeWith m i ++ rest) = .ok i rest := by
  rw [encodeWith, List.cons_append, decodeWith, controlRom_opcodeFor wf]
  exact decodeOperands_operands i rest

/-- Settles O1: the control ROM gives back the row of the opcode byte, and the row's mode takes the operand bytes. -/
theorem decodeOfEncodeIsTheInstruction : Obligations.DecodeOfEncodeIsTheInstruction :=
  ⟨fun _ => decodeWith_encodeWith, decodeWith_encodeWith default_wellFormed⟩

/-- A byte list that decodes begins with a byte the control ROM loads for, and the operand bytes follow it. -/
theorem eq_encodeWith_of_decodeWith {m : OpcodeMap} {bytes rest : List Byte} {i : Instr}
    (h : decodeWith m bytes = .ok i rest) : bytes = encodeWith m i ++ rest := by
  cases bytes with
  | nil => cases h
  | cons op tail =>
    rw [decodeWith] at h
    cases rom : controlRom m op with
    | illegal | unimplemented => rw [rom] at h; cases h
    | load r mode =>
      simp only [rom] at h
      obtain ⟨j, left, rfl, rfl, taken, hd⟩ | ⟨_, hd⟩ := decodeOperands_cases r mode tail <;> cases hd.symm.trans h
      rw [encodeWith, List.cons_append, ← taken, controlRom_eq_load rom]

/-- Settles O2: the opcode byte is that of its row, and the operand decoder drops no byte. -/
theorem encodeOfDecodeIsTheBytes : Obligations.EncodeOfDecodeIsTheBytes :=
  fun _ _ _ _ => eq_encodeWith_of_decodeWith

/-- Settles O3: nine closed words, each decoded by running the decoder at the default map. -/
theorem wordsOfTheSpecDecode : Obligations.WordsOfTheSpecDecode := by
  unfold Obligations.WordsOfTheSpecDecode
  decide

/-! ### The bytes outside the executed set -/

theorem opcode_of_mem_romRows {m : OpcodeMap} {row : RomRow} (h : row ∈ romRows m) :
    row.opcode = m.opcodeFor row.dest row.mode := by
  simp only [romRows, List.mem_cons, List.not_mem_nil, or_false] at h
  obtain rfl | rfl | rfl | rfl | rfl | rfl | rfl | rfl | rfl := h <;> rfl

/-- The executed set is what the map gives the nine variants (40_step_and_decode.md R108). -/
theorem mem_executed {m : OpcodeMap} {op : Byte} : op ∈ m.executed ↔ ∃ r mode, op = m.opcodeFor r mode := by
  constructor
  · intro h
    obtain ⟨row, hrow, rfl⟩ : ∃ row ∈ romRows m, row.opcode = op := List.mem_map.mp h
    exact ⟨row.dest, row.mode, opcode_of_mem_romRows hrow⟩
  · rintro ⟨r, mode, rfl⟩
    exact List.mem_map_of_mem (f := RomRow.opcode) (mem_romRows m r mode)

/-- No row has the byte, so `ASSEMBLER_OPCODES` alone decides the rejection (30_encoding.md R80). -/
theorem controlRom_of_notMem_executed {m : OpcodeMap} {op : Byte} (h : op ∉ m.executed) :
    controlRom m op = if op ∈ m.assembler then .unimplemented else .illegal := by
  have none_found : (romRows m).find? (fun row => row.opcode == op) = none := by
    rw [List.find?_eq_none]
    intro row hrow found
    exact h (eq_of_beq found ▸ List.mem_map_of_mem (f := RomRow.opcode) hrow)
  rw [controlRom, none_found]

/-- At the default map a byte is executed or illegal: `ASSEMBLER_OPCODES` holds the nine executed bytes only. -/
theorem controlRom_default_ne_unimplemented (op : Byte) : controlRom Config.opcodes op ≠ .unimplemented := by
  by_cases h : op ∈ Config.opcodes.executed
  · obtain ⟨r, mode, rfl⟩ := mem_executed.mp h
    rw [controlRom_opcodeFor default_wellFormed]
    nofun
  · have outside : op ∉ Config.opcodes.assembler := h
    rw [controlRom_of_notMem_executed h, if_neg outside]
    nofun

/-- The byte numbers that stand for a byte of `l` are the numbers of the bytes of `l`. -/
theorem filter_range_mem_perm {l : List Byte} (distinct : l.Nodup) :
    ((List.range 256).filter fun n => BitVec.ofNat 8 n ∈ l).Perm (l.map BitVec.toNat) := by
  have numbers : (l.map BitVec.toNat).Nodup :=
    List.Pairwise.map BitVec.toNat (fun _ _ differ same => differ (BitVec.eq_of_toNat_eq same)) distinct
  refine (List.perm_ext_iff_of_nodup (List.Pairwise.filter _ List.nodup_range) numbers).mpr fun n => ?_
  simp only [List.mem_filter, List.mem_range, decide_eq_true_eq, List.mem_map]
  constructor
  · rintro ⟨below, mem⟩
    exact ⟨_, mem, Nat.mod_eq_of_lt below⟩
  · rintro ⟨op, mem, rfl⟩
    rw [BitVec.ofNat_toNat, BitVec.setWidth_eq]
    exact ⟨op.isLt, mem⟩

/-- Of the 256 bytes, those outside a list of distinct bytes are as many as the list leaves. -/
theorem length_filter_range_notMem {l : List Byte} (distinct : l.Nodup) :
    ((List.range 256).filter fun n => BitVec.ofNat 8 n ∉ l).length + l.length = 256 := by
  have inside := (filter_range_mem_perm distinct).length_eq
  have parts := List.length_eq_countP_add_countP (fun n => decide (BitVec.ofNat 8 n ∈ l)) (l := List.range 256)
  simp only [List.countP_eq_length_filter, decide_eq_true_eq, List.length_range] at parts
  rw [inside, List.length_map, Nat.add_comm] at parts
  exact parts.symm

end Sys2Proof

namespace Sys2Proof.Machine

/-- The opcode cycle is charged, and the byte is rejected by name before any operand byte is looked at. -/
theorem stepWith_of_notMem_executed {m : OpcodeMap} {s : State} (running : s.run = .running) (funded : s.budget ≠ 0)
    (below : s.pc ≠ 0xFFFF) (h : s.mem.read s.pc ∉ m.executed) :
    stepWith m s = .next (s.faulted (if s.mem.read s.pc ∈ m.assembler then .unimplementedOpcode else .illegalOpcode)
      (s.budget - 1)) := by
  have rom := controlRom_of_notMem_executed h
  apply stepWith_of_settled running funded
  by_cases known : s.mem.read s.pc ∈ m.assembler
  · rw [if_pos known] at rom ⊢
    exact fetch_unimplemented funded below (by rw [window_eq_cons, decodeWith, rom])
  · rw [if_neg known] at rom ⊢
    exact fetch_illegal funded below (by rw [window_eq_cons, decodeWith, rom])

/-- Settles O9: no row of the control ROM has the byte; the nine bytes of the executed set are distinct, so 247 are
left; and the default `ASSEMBLER_OPCODES` is the executed set. -/
theorem otherOpcodeBytesFault : Obligations.OtherOpcodeBytesFault := by
  refine ⟨fun m s _ running funded below h => stepWith_of_notMem_executed running funded below h, fun m wf => ?_,
    controlRom_default_ne_unimplemented⟩
  have nine : m.executed.length = 9 := rfl
  have := length_filter_range_notMem wf.1
  omega

end Sys2Proof.Machine

namespace Sys2Proof

/-! ### Memory references of the assembler -/

theorem encodeWith_zeroPage (m : OpcodeMap) (r : Reg) (a : Byte) :
    encodeWith m (Instr.zeroPage r a) = [m.opcodeFor r .zp, a] := by
  rw [encodeWith, dest_zeroPage, mode_zeroPage, operands_zeroPage]

theorem encodeWith_absolute (m : OpcodeMap) (r : Reg) (lo hi : Byte) :
    encodeWith m (Instr.absolute r lo hi) = [m.opcodeFor r .abs, lo, hi] := by
  rw [encodeWith, dest_absolute, mode_absolute, operands_absolute]

namespace Assembler

section
variable (r : Reg) {v : Nat}

theorem memoryReference_zeroPage (h : v < 0x100) :
    memoryReference r v = .instr (Instr.zeroPage r (BitVec.ofNat 8 v)) := if_pos h

theorem memoryReference_absolute (low : 0x100 ≤ v) (high : v < 0x10000) :
    memoryReference r v = .instr (Instr.absolute r (BitVec.ofNat 8 v) (BitVec.ofNat 8 (v / 256))) := by
  rw [memoryReference, if_neg (Nat.not_lt.mpr low), if_pos high]

theorem memoryReference_outOfRange (h : 0x10000 ≤ v) : memoryReference r v = .error .outOfRange := by
  rw [memoryReference, if_neg (by omega), if_neg (by omega)]

end

/-- Settles O38: each of the three ranges of values has one answer, and an absolute address is made of the two bytes
of its value. -/
theorem memoryReferencesAreClassifiedByValue : Obligations.MemoryReferencesAreClassifiedByValue := by
  refine fun m r v => ⟨fun h => ?_, fun low high => ?_, memoryReference_outOfRange r⟩
  · exact ⟨_, memoryReference_zeroPage r h, encodeWith_zeroPage m r _⟩
  · refine ⟨_, memoryReference_absolute r low high, _, _, encodeWith_absolute m r _ _, ?_⟩
    rw [Machine.address_toNat, BitVec.toNat_ofNat, BitVec.toNat_ofNat]
    omega

end Assembler

/-! ### Bytes placed in memory, and read back -/

namespace Memory

/-- Placing bytes changes no byte below or above them. -/
theorem lookup_place_other {mem : Memory} (wf : mem.wf = true) (bytes : List Byte) {a a' : Nat}
    (outside : a' < a ∨ a + bytes.length ≤ a') : (place bytes a mem).lookup a' = mem.lookup a' := by
  induction bytes generalizing a mem with
  | nil => rfl
  | cons b rest ih =>
    rw [List.length_cons] at outside
    rw [place]
    split
    next top =>
      rw [ih (insert_wfFrom wf (Nat.zero_le a) top b) (by omega), lookup_insert wf, if_neg (by omega)]
    next => rfl

/-- Bytes placed below the top of memory stand where they were placed. -/
theorem lookup_place_same {mem : Memory} (wf : mem.wf = true) (bytes : List Byte) {a k : Nat}
    (fits : a + bytes.length ≤ 0x10000) (hk : k < bytes.length) :
    bytes[k]? = some ((place bytes a mem).lookup (a + k)) := by
  induction bytes generalizing a k mem with
  | nil => cases hk
  | cons b rest ih =>
    rw [List.length_cons] at fits hk
    have top : a < 65536 := by omega
    have wf' := insert_wfFrom wf (Nat.zero_le a) top b
    rw [place, if_pos top]
    cases k with
    | zero =>
      have kept := lookup_place_other wf' rest (.inl a.lt_add_one)
      rw [lookup_insert wf, if_pos rfl] at kept
      exact congrArg some kept.symm
    | succ k =>
      rw [List.getElem?_cons_succ, Nat.add_comm k 1, ← Nat.add_assoc]
      exact ih (a := a + 1) wf' (by omega) (Nat.lt_of_succ_lt_succ hk)

theorem bytesFrom_add (mem : Memory) (j k a : Nat) :
    mem.bytesFrom (j + k) a = mem.bytesFrom j a ++ mem.bytesFrom k (a + j) := by
  induction j generalizing a with
  | zero => rw [Nat.zero_add]; rfl
  | succ j ih =>
    rw [Nat.succ_add, bytesFrom, bytesFrom]
    split
    next => rw [ih, List.cons_append, Nat.succ_add_eq_add_succ]
    next beyond =>
      cases k with
      | zero => rfl
      | succ k => rw [bytesFrom, if_neg (by omega)]; rfl

/-- Bytes that stand in memory are read back. -/
theorem bytesFrom_eq {mem : Memory} {bytes : List Byte} {a : Nat} (fits : a + bytes.length ≤ 0x10000)
    (stand : ∀ k, k < bytes.length → bytes[k]? = some (mem.lookup (a + k))) :
    mem.bytesFrom bytes.length a = bytes := by
  induction bytes generalizing a with
  | nil => rfl
  | cons b rest ih =>
    rw [List.length_cons] at fits stand
    have here : b = mem.lookup a := Option.some.inj (stand 0 (Nat.succ_pos _))
    rw [List.length_cons, bytesFrom, if_pos (by omega), ← here, ih (by omega)]
    intro k hk
    have next := stand (k + 1) (Nat.succ_lt_succ hk)
    rwa [List.getElem?_cons_succ, Nat.add_comm k 1, ← Nat.add_assoc] at next

end Memory

/-- An instruction whose bytes stand in memory is decoded from the three bytes there, or from as many as there are. -/
theorem decodeWith_bytesFrom {m : OpcodeMap} (wf : m.WellFormed) {mem : Memory} {i : Instr} {a : Nat}
    (fits : a + i.length ≤ 0x10000)
    (stand : ∀ k, k < i.length → (encodeWith m i)[k]? = some (mem.lookup (a + k))) :
    ∃ rest, decodeWith m (mem.bytesFrom 3 a) = .ok i rest := by
  have bytes := Memory.bytesFrom_eq (bytes := encodeWith m i) (by rwa [encodeWith_length]) (by rwa [encodeWith_length])
  rw [encodeWith_length] at bytes
  obtain ⟨more, three⟩ : ∃ more, 3 = i.length + more := by
    obtain two | three := Machine.length_eq_two_or_three i
    · exact ⟨1, by rw [two]⟩
    · exact ⟨0, by rw [three]⟩
  rw [three, Memory.bytesFrom_add, bytes]
  exact ⟨_, decodeWith_encodeWith wf i _⟩

/-! ### One line of the assembler -/

namespace Assembler

/-- Bytes that are all emitted fit below the top and are placed at the cursor (30_encoding.md R90). -/
theorem eq_place_of_emit {bytes : List Byte} {p q : Progress} (h : emit bytes p = .ok q) :
    (bytes ≠ [] → p.cursor + bytes.length ≤ 0x10000) ∧
    q = { p with cursor := p.cursor + bytes.length, image := Memory.place bytes p.cursor p.image } := by
  induction bytes generalizing p with
  | nil =>
    cases h
    exact ⟨fun empty => absurd rfl empty, rfl⟩
  | cons b rest ih =>
    rw [emit] at h
    split at h
    next top =>
      obtain ⟨fits, rfl⟩ := ih h
      rw [Memory.place, if_pos top, List.length_cons, Nat.add_comm rest.length, ← Nat.add_assoc]
      refine ⟨fun _ => ?_, rfl⟩
      by_cases last : rest = []
      · rw [last]; exact top
      · exact fits last
    next => cases h

/-- An instruction that is emitted fits below the top; its bytes are placed and its cost added (R90, R91). -/
theorem eq_place_of_emitInstr {m : OpcodeMap} {i : Instr} {p q : Progress} (h : emitInstr m i p = .ok q) :
    p.cursor + i.length ≤ 0x10000 ∧
    q = ⟨p.cursor + i.length, Memory.place (encodeWith m i) p.cursor p.image, p.budget + BitVec.ofNat 32 i.cost⟩ := by
  rw [emitInstr] at h
  cases emitted : emit (encodeWith m i) p with
  | failed e u => rw [emitted] at h; cases h
  | ok u =>
    simp only [emitted] at h
    cases h
    obtain ⟨fits, rfl⟩ := eq_place_of_emit emitted
    rw [encodeWith_length] at fits ⊢
    exact ⟨fits (List.cons_ne_nil _ _), rfl⟩

/-- A line that resolves to an instruction is not empty, so it is not skipped (R83). -/
theorem assembleLine_of_instr (m : OpcodeMap) {line : List Char} {i : Instr} (p : Progress)
    (h : resolveLine line = .instr i) : assembleLine m line p = emitInstr m i p := by
  cases line with
  | nil => cases h
  | cons ch rest => rw [assembleLine, h]

/-- Settles O39: the line's bytes are placed at the cursor, and what is placed there is read back. -/
theorem assembledLineIsItsInstruction : Obligations.AssembledLineIsItsInstruction := by
  intro m line p q i wf canonical resolved assembled
  rw [assembleLine_of_instr m p resolved] at assembled
  obtain ⟨fits, rfl⟩ := eq_place_of_emitInstr assembled
  have bytes := encodeWith_length m i
  have stand (k : Nat) (hk : k < i.length) :=
    Memory.lookup_place_same canonical (encodeWith m i) (k := k) (bytes.symm ▸ fits) (bytes.symm ▸ hk)
  exact ⟨rfl, rfl, Memory.place_wf _ _ canonical, stand,
    fun a outside => Memory.lookup_place_other canonical _ (bytes.symm ▸ outside), decodeWith_bytesFrom wf fits stand⟩

end Assembler

end Sys2Proof

/-! ## The step and the control ROM (40_step_and_decode.md)

A run's end is counted in completed steps of at least two cycles each. The cycle-level engine is tied to the step by
the load's cycles written with the bytes they consume (`loadCycles`): the step ends as they end, and the engine is
these cycles, one after another. -/

namespace Sys2Proof.Machine

/-! ### Halted cores -/

theorem runWith_of_halted (m : OpcodeMap) {s : State} (halted : s.run = .halted) (k : Nat) : runWith m k s = s := by
  induction k with
  | zero => rfl
  | succ k ih => rw [runWith, stepWith_of_halted m halted]; exact ih

/-- Settles O8: the step of a halted core answers it, and so does a run, by induction on the steps. -/
theorem haltedCoreStaysAsItIs : Obligations.HaltedCoreStaysAsItIs :=
  fun m _ halted => ⟨stepWith_of_halted m halted, runWith_of_halted m halted⟩

/-- Settles O7: of the effects a running core can have, a fault sets `FAULT` and a load leaves the core running. -/
theorem emptyBudgetHaltsAtTheBoundary : Obligations.EmptyBudgetHaltsAtTheBoundary := by
  refine fun m s running => ⟨stepWith_of_spent m running, fun t h halted clear => ?_⟩
  obtain ⟨e, occurs, rfl⟩ := effect_of_step h
  cases occurs with
  | stay halted' => exact nomatch running.symm.trans halted'
  | halt _ spent => exact spent
  | fault => exact nomatch clear
  | load => exact nomatch running.symm.trans ((setReg_run s _ _).symm.trans halted)

/-! ### Completed instructions -/

/-- A step that leaves the core running has completed the instruction decoded at `PC`: nothing wraps, and the load has
its effect. -/
theorem load_of_step_running {m : OpcodeMap} {s t : State} (h : stepWith m s = .next t) (running : t.run = .running) :
    ∃ i rest, decodeWith m s.window = .ok i rest ∧ s.pc.toNat + i.length ≤ 0xFFFF ∧ i.cost ≤ s.budget.toNat ∧
      t = s.loaded i.dest (operandValue s i) (BitVec.ofNat 16 i.length) (BitVec.ofNat 32 i.cost) := by
  obtain ⟨e, occurs, rfl⟩ := effect_of_step h
  cases occurs with
  | stay halted => exact nomatch halted.symm.trans running
  | halt => exact nomatch running
  | fault => exact nomatch running
  | load i rest _ decoded fits covered => exact ⟨i, rest, decoded, fits, covered, rfl⟩

/-- Settles O24: a completed load has moved `PC` by its length and taken its cost, with no wrap. -/
theorem completedStepCostsExactly : Obligations.CompletedStepCostsExactly := by
  intro m s t h running
  obtain ⟨i, rest, decoded, fits, covered, rfl⟩ := load_of_step_running h running
  exact ⟨i, rest, decoded, budget_sub_cost_toNat covered, pc_add_length_toNat fits⟩

/-- The cheapest instruction costs two cycles (40_step_and_decode.md R116). -/
theorem two_cycles_of_step_running {m : OpcodeMap} {s t : State} (h : stepWith m s = .next t)
    (running : t.run = .running) : t.budget.toNat + 2 ≤ s.budget.toNat := by
  obtain ⟨i, _, _, spent, _⟩ := completedStepCostsExactly m s t h running
  have := two_le_cost i
  omega

/-! ### Runs end -/

theorem runWith_add (m : OpcodeMap) (j k : Nat) (s : State) : runWith m (j + k) s = runWith m k (runWith m j s) := by
  induction j generalizing s with
  | zero => rw [Nat.zero_add]; rfl
  | succ j ih =>
    obtain ⟨t, ht⟩ := step_next m s
    rw [Nat.succ_add]
    simp only [runWith, ht]
    exact ih t

/-- Every step a still running core has behind it was a completed instruction. -/
theorem budget_of_runWith_running {m : OpcodeMap} {k : Nat} {s : State} (running : (runWith m k s).run = .running) :
    (runWith m k s).budget.toNat + 2 * k ≤ s.budget.toNat := by
  induction k generalizing s with
  | zero => exact Nat.le_refl _
  | succ k ih =>
    obtain ⟨t, ht⟩ := step_next m s
    simp only [runWith, ht] at running ⊢
    have later := ih running
    have running' : t.run = .running := by
      cases ht' : t.run with
      | running => rfl
      | halted => rw [runWith_of_halted m ht'] at running; exact nomatch ht'.symm.trans running
    have first := two_cycles_of_step_running ht running'
    omega

theorem finalState_halted (m : OpcodeMap) (s : State) : (finalState m s).run = .halted := by
  cases running : (finalState m s).run with
  | halted => rfl
  | running =>
    have := budget_of_runWith_running running
    omega

/-- Settles O30: by induction on the steps, a core that still runs has spent two cycles for each, which the budget
bounds; once halted it stays. -/
theorem everyRunEnds : Obligations.EveryRunEnds := by
  refine fun m s => ⟨fun k => budget_of_runWith_running, finalState_halted m s, fun k hk => ?_,
    fun t running funded h => ?_, fun k => ?_⟩
  · obtain ⟨d, rfl⟩ := Nat.exists_eq_add_of_le hk
    rw [runWith_add]
    exact runWith_of_halted m (finalState_halted m s) d
  · obtain ⟨_, _, decreases⟩ := budgetOnlyCountsDown m s t h
    exact decreases running funded
  · exact runWith_keeps (P := fun u => u.budget.toNat ≤ s.budget.toNat)
      (fun u t hu h => Nat.le_trans (budgetOnlyCountsDown m u t h).1 hu) k (Nat.le_refl _)

/-! ### The flags -/

theorem negative_eq_decide (v : Byte) : negative v = decide (0x80 ≤ v.toNat) := BitVec.msb_eq_decide v

theorem zero_eq_decide (v : Byte) : zero v = decide (v.toNat = 0) := by
  rw [zero, Bool.beq_eq_decide_eq, decide_eq_decide]
  exact BitVec.toNat_inj.symm

/-- Settles O18: `N` and `Z` are comparisons of the byte's value, and a completed load commits the byte it writes. -/
theorem flagsAreThoseOfTheLoadedByte : Obligations.FlagsAreThoseOfTheLoadedByte := by
  constructor
  · intro f v
    simp only [setNZ_n, setNZ_z, negative_eq_decide, zero_eq_decide, decide_eq_true_eq, decide_eq_false_iff_not]
    refine ⟨rfl, ?_, fun _ _ => by omega, fun _ => by omega⟩
    rintro rfl
    decide
  · intro m s t h running
    obtain ⟨i, rest, decoded, _, _, rfl⟩ := load_of_step_running h running
    refine ⟨i, rest, decoded, ?_⟩
    rw [reg_loaded_same]
    rfl

/-! ### The instruction whose bytes stand at `PC` -/

/-- One byte is no instruction: what decodes at `PC` does not begin at the top of memory. -/
theorem pc_ne_top_of_decoded {m : OpcodeMap} {s : State} {i : Instr} {rest : List Byte}
    (h : decodeWith m s.window = .ok i rest) : s.pc ≠ 0xFFFF := by
  intro top
  have bytes := congrArg List.length (eq_encodeWith_of_decodeWith h)
  have := length_eq_two_or_three i
  rw [State.window, top, List.length_append, encodeWith_length] at bytes
  have one : (s.mem.bytesFrom 3 0xFFFF).length = 1 := bytesFrom_length s.mem 3 0xFFFF
  simp only [BitVec.reduceToNat, one] at bytes
  omega

theorem stepWith_of_decoded {m : OpcodeMap} {s : State} {i : Instr} {rest : List Byte} (running : s.run = .running)
    (funded : s.budget ≠ 0) (h : decodeWith m s.window = .ok i rest) : stepWith m s = exec i s := by
  rw [stepWith_of_instr running funded (fetch_decoded funded (pc_ne_top_of_decoded h) h), exec_eq]

/-- Settles O6: bytes that stand at `PC` decode to their instruction, and the fetch finds what is decoded. -/
theorem stepRunsTheDecodedInstruction : Obligations.StepRunsTheDecodedInstruction := by
  refine ⟨fun m wf i s running funded fits stand => ?_, fun m i rest s => stepWith_of_decoded,
    fun i rest s => stepWith_of_decoded⟩
  obtain ⟨rest, decoded⟩ := decodeWith_bytesFrom wf fits stand
  exact stepWith_of_decoded running funded decoded

/-- An instruction below the top of memory whose cost the budget covers completes. -/
theorem stepWith_completes {m : OpcodeMap} {s : State} {i : Instr} {rest : List Byte} (running : s.run = .running)
    (h : decodeWith m s.window = .ok i rest) (fits : s.pc.toNat + i.length ≤ 0xFFFF)
    (covered : i.cost ≤ s.budget.toNat) :
    stepWith m s =
      .next (s.loaded i.dest (operandValue s i) (BitVec.ofNat 16 i.length) (BitVec.ofNat 32 i.cost)) := by
  have funded : s.budget ≠ 0 := budget_ne_zero.mpr (Nat.le_trans (Nat.le_of_succ_le (two_le_cost i)) covered)
  rw [stepWith_of_decoded running funded h, exec_eq, outcome, if_pos fits, if_pos covered]

/-- What is left of `BUDGET` after a completed instruction tells its cost. -/
theorem budget_sub_sub_cost {s : State} {i : Instr} (covered : i.cost ≤ s.budget.toNat) :
    s.budget - (s.budget - BitVec.ofNat 32 i.cost) = BitVec.ofNat 32 i.cost := by
  have spent := budget_sub_cost_toNat covered
  have cost := cost_le_four i
  apply BitVec.eq_of_toNat_eq
  rw [BitVec.toNat_sub_of_le (BitVec.le_def.mpr (by omega)), BitVec.toNat_ofNat]
  omega

/-- Settles O40: the assembler's line decodes at its own address, and its recorded cost is the cost the step takes. -/
theorem assembledLineRunsAtItsRecordedCost : Obligations.AssembledLineRunsAtItsRecordedCost := by
  intro m line p q i s wf canonical resolved assembled top running mem pc covered
  obtain ⟨cursor, budget, _, _, _, rest, decoded⟩ :=
    Assembler.assembledLineIsItsInstruction m line p q i wf canonical resolved assembled
  rw [← mem, ← pc] at decoded
  rw [← pc] at cursor
  have fits : s.pc.toNat + i.length ≤ 0xFFFF := cursor ▸ top
  refine ⟨_, stepWith_completes running decoded fits covered, (setReg_run s _ _).trans running,
    (pc_add_length_toNat fits).trans cursor.symm, ?_, reg_loaded_same s _ _ _ _⟩
  rw [budget, BitVec.add_comm, BitVec.add_sub_cancel]
  exact budget_sub_sub_cost covered

end Sys2Proof.Machine

namespace Sys2Proof

/-! ### The control ROM -/

section
variable {m : OpcodeMap} (wf : m.WellFormed) {op : Byte}
include wf

theorem controlRom_of_mem_executed (h : op ∈ m.executed) : ∃ r mode, controlRom m op = .load r mode := by
  obtain ⟨r, mode, rfl⟩ := mem_executed.mp h
  exact ⟨r, mode, controlRom_opcodeFor wf r mode⟩

theorem controlRom_eq_unimplemented_iff : controlRom m op = .unimplemented ↔ op ∈ m.assembler ∧ op ∉ m.executed := by
  by_cases executed : op ∈ m.executed
  · obtain ⟨r, mode, rom⟩ := controlRom_of_mem_executed wf executed
    simp [rom, executed]
  · simp [controlRom_of_notMem_executed executed, executed]

theorem controlRom_eq_illegal_iff : controlRom m op = .illegal ↔ op ∉ m.assembler := by
  by_cases executed : op ∈ m.executed
  · obtain ⟨r, mode, rom⟩ := controlRom_of_mem_executed wf executed
    simp [rom, wf.2 op executed]
  · simp [controlRom_of_notMem_executed executed]

end

/-- Settles O4: a byte of the executed set loads; for any other, `ASSEMBLER_OPCODES` decides. -/
theorem controlRomLoadsExactlyNineBytes : Obligations.ControlRomLoadsExactlyNineBytes :=
  fun _ wf => ⟨controlRom_opcodeFor wf, fun _ _ _ => controlRom_eq_load,
    fun _ => controlRom_eq_unimplemented_iff wf, fun _ => controlRom_eq_illegal_iff wf⟩

end Sys2Proof

namespace Sys2Proof.Machine

/-! ### The cycle-level engine (R115) -/

/-- The engine, from `e`, comes to its next boundary within `n` cycles, in state `t`. -/
inductive NextBoundary (m : OpcodeMap) (t : State) : Nat → Engine → Prop
  | last {n : Nat} {e : Engine} (h : cycleStep m e = atBoundary t) : NextBoundary m t (n + 1) e
  | cycle {n : Nat} {e : Engine} (inside : (cycleStep m e).phase ≠ .boundary)
      (later : NextBoundary m t n (cycleStep m e)) : NextBoundary m t (n + 1) e

/-- What `NextBoundary` says of the engine after each number of cycles. -/
theorem NextBoundary.exists_cycles {m : OpcodeMap} {t : State} {n : Nat} {e : Engine} (h : NextBoundary m t n e) :
    ∃ k, 1 ≤ k ∧ k ≤ n ∧ cycles m k e = atBoundary t ∧ ∀ j, 1 ≤ j → j < k → (cycles m j e).phase ≠ .boundary := by
  induction h with
  | last h => exact ⟨1, Nat.le_refl _, Nat.succ_le_succ (Nat.zero_le _), h, fun j _ _ => by omega⟩
  | cycle inside _ ih =>
    obtain ⟨k, _, hk, reached, before⟩ := ih
    refine ⟨k + 1, Nat.le_add_left _ _, Nat.succ_le_succ hk, reached, fun j hj hjk => ?_⟩
    obtain ⟨j, rfl⟩ := Nat.exists_eq_add_of_le' hj
    cases j with
    | zero => exact inside
    | succ j => exact before (j + 1) (Nat.le_add_left _ _) (Nat.lt_of_succ_lt_succ hjk)

/-! ### The engine's cycles -/

section
variable (m : OpcodeMap) {s : State}

theorem cycleStep_of_halted (halted : s.run = .halted) : cycleStep m (atBoundary s) = atBoundary s := by
  unfold cycleStep atBoundary
  simp only [halted]

variable (running : s.run = .running)
include running

theorem cycleStep_of_spent (spent : s.budget = 0) : cycleStep m (atBoundary s) = atBoundary s.halt := by
  unfold cycleStep atBoundary
  simp only [running]
  exact if_pos spent

theorem cycleStep_of_funded (funded : s.budget ≠ 0) :
    cycleStep m (atBoundary s) = s.consume.continue s.pc (afterOpcode m s.pc) := by
  unfold cycleStep atBoundary
  simp only [running]
  exact if_neg funded

end

/-- The cycles of a load of `r` after the opcode cycle, with the operand bytes they consume, and the commit
(40_step_and_decode.md R109). -/
def loadCycles (r : Reg) : Mode → State → CycleEnd Unit
  | .imm, s => s.consume.andThen fun v t => .done () (t.commit r v)
  | .zp, s => s.consume.andThen fun a t => (t.readData (zext16 a)).andThen fun v u => .done () (u.commit r v)
  | .abs, s => s.consume.andThen fun lo t => t.consume.andThen fun hi u =>
      (u.readData (address lo hi)).andThen fun v w => .done () (w.commit r v)

section
variable {m : OpcodeMap} {α : Type} {s₀ : State} {n : Nat} {e : Engine} {c : CycleEnd α}

/-- The engine's last cycle of a load: the commit, or fault entry. -/
theorem nextBoundary_of_last {f : α → State → State}
    (h : cycleStep m e = c.continue s₀.pc fun v t => atBoundary (f v t)) :
    NextBoundary m (s₀.conclude (c.andThen fun v t => .done () (f v t))) (n + 1) e := by
  cases c <;> exact .last h

/-- An earlier cycle of a load: a raise ends it in fault entry, and otherwise the later cycles do. -/
theorem nextBoundary_of_cycle {next : α → State → Engine} {later : α → State → CycleEnd Unit}
    (h : cycleStep m e = c.continue s₀.pc next) (inside : ∀ v t, (next v t).phase ≠ .boundary)
    (hlater : ∀ v t, NextBoundary m (s₀.conclude (later v t)) (n + 1) (next v t)) :
    NextBoundary m (s₀.conclude (c.andThen later)) (n + 2) e := by
  cases c with
  | raise f t => exact .last h
  | done v t =>
    have h : cycleStep m e = next v t := h
    exact .cycle (h ▸ inside v t) (h ▸ hlater v t)

end

/-- The engine, past the opcode cycle of a load, ends as the load's cycles end. -/
theorem nextBoundary_afterOpcode {m : OpcodeMap} {op : Byte} {r : Reg} {mode : Mode}
    (rom : controlRom m op = .load r mode) (s₀ t : State) :
    (afterOpcode m s₀.pc op t).phase ≠ .boundary ∧
      NextBoundary m (s₀.conclude (loadCycles r mode t)) 3 (afterOpcode m s₀.pc op t) := by
  have data (n : Nat) (ea : Addr) (u : State) : NextBoundary m
      (s₀.conclude ((u.readData ea).andThen fun v w => .done () (w.commit r v))) (n + 1) ⟨.data s₀.pc r ea, u⟩ :=
    nextBoundary_of_last rfl
  cases mode with
  | imm =>
    rw [afterOpcode, rom]
    exact ⟨nofun, nextBoundary_of_last rfl⟩
  | zp =>
    rw [afterOpcode, rom]
    exact ⟨nofun, nextBoundary_of_cycle rfl (fun _ _ => nofun) fun a u => data 1 _ u⟩
  | abs =>
    rw [afterOpcode, rom]
    exact ⟨nofun, nextBoundary_of_cycle rfl (fun _ _ => nofun) fun lo u =>
      nextBoundary_of_cycle rfl (fun _ _ => nofun) fun hi w => data 0 _ w⟩

/-! ### The step of a load ends as the load's cycles end -/

theorem andThen_assoc {α β γ : Type} (c : CycleEnd α) (k : α → State → CycleEnd β) (l : β → State → CycleEnd γ) :
    (c.andThen k).andThen l = c.andThen fun v s => (k v s).andThen l := by
  cases c <;> rfl

/-- The state after a consumed byte. -/
def State.consumed (s : State) : State := { s with budget := s.budget - 1, pc := s.pc + 1 }

theorem consume_eq_consumed {s : State} (funded : s.budget ≠ 0) (below : s.pc ≠ 0xFFFF) :
    s.consume = .done (s.mem.read s.pc) s.consumed := consume_done funded below

/-- What follows a consumed byte can be told for the byte at `PC` and the state after it. -/
theorem consume_andThen_congr {α : Type} {s : State} {k k' : Byte → State → CycleEnd α}
    (h : s.pc ≠ 0xFFFF → k (s.mem.read s.pc) s.consumed = k' (s.mem.read s.pc) s.consumed) :
    s.consume.andThen k = s.consume.andThen k' := by
  obtain ⟨_, e⟩ | ⟨_, _, e⟩ | ⟨_, below, e⟩ := consume_cases s <;> rw [e]
  · rfl
  · rfl
  · exact h below

theorem exec_immediate (r : Reg) (v : Byte) (s : State) :
    exec (Instr.immediate r v) s = load r (immediateOperand v) s := by cases r <;> rfl
theorem exec_zeroPage (r : Reg) (a : Byte) (s : State) :
    exec (Instr.zeroPage r a) s = load r (zeroPageOperand a) s := by cases r <;> rfl
theorem exec_absolute (r : Reg) (lo hi : Byte) (s : State) :
    exec (Instr.absolute r lo hi) s = load r (absoluteOperand lo hi) s := by cases r <;> rfl

theorem bytesFrom_pc (s : State) (k : Nat) :
    s.mem.bytesFrom (k + 1) s.pc.toNat = s.mem.read s.pc :: s.mem.bytesFrom k (s.pc.toNat + 1) := by
  rw [Memory.bytesFrom, if_pos s.pc.isLt, Memory.read]

/-- Below the top of memory the byte at `PC` is followed by those at the `PC` of the next cycle. -/
theorem bytesFrom_consumed {s : State} (below : s.pc ≠ 0xFFFF) (k : Nat) :
    s.mem.bytesFrom (k + 1) s.pc.toNat = s.mem.read s.pc :: s.consumed.mem.bytesFrom k s.consumed.pc.toNat := by
  rw [bytesFrom_pc, ← pc_succ_toNat below]
  rfl

/-- Nothing stands beyond the top of memory. -/
theorem bytesFrom_top {s : State} (top : s.pc = 0xFFFF) (k : Nat) :
    s.mem.bytesFrom (k + 1) s.pc.toNat = [s.mem.read s.pc] := by
  rw [bytesFrom_pc, top]
  cases k <;> rfl

section
variable {m : OpcodeMap} {s : State} (running : s.run = .running) (funded : s.budget ≠ 0) (below : s.pc ≠ 0xFFFF)

include below in
theorem decodeWith_window_of_load {r : Reg} {mode : Mode} (rom : controlRom m (s.mem.read s.pc) = .load r mode) :
    decodeWith m s.window = decodeOperands r mode (s.consumed.mem.bytesFrom 2 s.consumed.pc.toNat) := by
  rw [State.window, bytesFrom_consumed below, decodeWith, rom]

include funded below in
theorem load_eq_conclude (r : Reg) (operand : State → CycleEnd Byte) :
    load r operand s = .next (s.conclude ((operand s.consumed).andThen fun v u => .done () (u.commit r v))) := by
  rw [load, consume_eq_consumed funded below, andThen_done]

include running funded below

/-- The bytes a load's cycles consume are its operands; where the top of memory cuts an absolute load short, both are
one more consumed byte, which raises. -/
theorem stepWith_of_load {r : Reg} {mode : Mode} (rom : controlRom m (s.mem.read s.pc) = .load r mode) :
    stepWith m s = .next (s.conclude (loadCycles r mode s.consumed)) := by
  have decoded := decodeWith_window_of_load below rom
  cases mode with
  | imm =>
    rw [bytesFrom_pc] at decoded
    rw [stepWith_of_decoded running funded decoded, exec_immediate, load_eq_conclude funded below, immediateOperand,
      andThen_assoc]
    congr 2
    exact consume_andThen_congr fun _ => rfl
  | zp =>
    rw [bytesFrom_pc] at decoded
    rw [stepWith_of_decoded running funded decoded, exec_zeroPage, load_eq_conclude funded below, zeroPageOperand,
      andThen_assoc]
    congr 2
    exact consume_andThen_congr fun _ => rfl
  | abs =>
    by_cases top : s.consumed.pc = 0xFFFF
    · rw [bytesFrom_top top] at decoded
      rw [stepWith_of_settled running funded (fetch_truncated funded below decoded), State.cutShort, State.consumeMany,
        consume_eq_consumed funded below, andThen_done, State.consumeMany]
      congr 2
      exact consume_andThen_congr fun inside => absurd top inside
    · rw [bytesFrom_consumed top, bytesFrom_pc] at decoded
      rw [stepWith_of_decoded running funded decoded, exec_absolute, load_eq_conclude funded below, absoluteOperand,
        andThen_assoc]
      congr 2
      refine consume_andThen_congr fun _ => ?_
      rw [andThen_assoc]
      exact consume_andThen_congr fun _ => rfl

/-! ### The engine from a boundary -/

theorem cycleStep_of_opcode :
    cycleStep m (atBoundary s) = afterOpcode m s.pc (s.mem.read s.pc) s.consumed := by
  rw [cycleStep_of_funded m running funded, consume_eq_consumed funded below]
  rfl

/-- The step and the engine agree on an instruction whose opcode byte is below the top of memory. -/
theorem step_nextBoundary_of_opcode : ∃ t, stepWith m s = .next t ∧ NextBoundary m t 4 (atBoundary s) := by
  have first := cycleStep_of_opcode (m := m) running funded below
  cases rom : controlRom m (s.mem.read s.pc) with
  | illegal =>
    have rejected := fetch_illegal (m := m) funded below (by rw [window_eq_cons, decodeWith, rom])
    exact ⟨_, stepWith_of_settled running funded rejected, .last (by rw [first, afterOpcode, rom]; rfl)⟩
  | unimplemented =>
    have rejected := fetch_unimplemented (m := m) funded below (by rw [window_eq_cons, decodeWith, rom])
    exact ⟨_, stepWith_of_settled running funded rejected, .last (by rw [first, afterOpcode, rom]; rfl)⟩
  | load r mode =>
    obtain ⟨inside, later⟩ := nextBoundary_afterOpcode rom s s.consumed
    exact ⟨_, stepWith_of_load running funded below rom, .cycle (first ▸ inside) (first ▸ later)⟩

end

theorem step_nextBoundary (m : OpcodeMap) (s : State) :
    ∃ t, stepWith m s = .next t ∧ NextBoundary m t 4 (atBoundary s) := by
  cases running : s.run with
  | halted => exact ⟨s, stepWith_of_halted m running, .last (cycleStep_of_halted m running)⟩
  | running =>
    by_cases spent : s.budget = 0
    · exact ⟨_, stepWith_of_spent m running spent, .last (cycleStep_of_spent m running spent)⟩
    by_cases top : s.pc = 0xFFFF
    · refine ⟨_, stepWith_of_settled running spent (fetch_top spent top), .last ?_⟩
      rw [cycleStep_of_funded m running spent, consume_top spent top]
      rfl
    · exact step_nextBoundary_of_opcode running spent top

/-- Settles O36: the halt transition and every fault of the opcode cycle take one cycle, and a load its own. -/
theorem cycleLevelEngineAgreesWithTheStep : Obligations.CycleLevelEngineAgreesWithTheStep := by
  intro m s t h
  obtain ⟨u, hu, boundary⟩ := step_nextBoundary m s
  cases hu.symm.trans h
  exact boundary.exists_cycles

end Sys2Proof.Machine

/-! ## The nine loads (41_loads.md)

`exec_eq` gives what a decoded load leaves. Here that is read off clause by clause: once for an instruction (`outcome`),
and once for the step of a core with a load's opcode byte at `PC`, in each addressing mode. -/

namespace Sys2Proof.Machine

/-! ### What a load leaves: one lemma for each of its three ends -/

section
variable {s : State} {i : Instr}

theorem outcome_loaded (fits : s.pc.toNat + i.length ≤ 0xFFFF) (covered : i.cost ≤ s.budget.toNat) :
    outcome s i = s.loaded i.dest (operandValue s i) (BitVec.ofNat 16 i.length) (BitVec.ofNat 32 i.cost) := by
  rw [outcome, if_pos fits, if_pos covered]

/-- The budget is short, and the bytes it reaches are below `0xFFFF`. -/
theorem outcome_underrun (short : s.budget.toNat < i.cost)
    (below : s.pc.toNat + min s.budget.toNat i.length ≤ 0xFFFF) : outcome s i = s.faulted .budgetUnderrun 0 := by
  rw [outcome]
  split <;> rw [if_neg (by omega)]

/-- The `n`-th byte of the instruction is at `0xFFFF`, and the budget reaches it. -/
theorem outcome_outOfRange {n : Nat} (top : s.pc.toNat + n = 0x10000) (within : n ≤ i.length)
    (reached : n ≤ s.budget.toNat) : outcome s i = s.faulted .outOfRange (s.budget - BitVec.ofNat 32 n) := by
  obtain rfl : 0x10000 - s.pc.toNat = n := by omega
  rw [outcome, if_neg (by omega), if_pos reached]

/-- An instruction below the top of memory whose cost the budget covers completes (40_step_and_decode.md R113). -/
theorem exec_loaded (fits : s.pc.toNat + i.length ≤ 0xFFFF) (covered : i.cost ≤ s.budget.toNat) :
    exec i s =
      .next (s.loaded i.dest (operandValue s i) (BitVec.ofNat 16 i.length) (BitVec.ofNat 32 i.cost)) := by
  rw [exec_eq, outcome_loaded fits covered]

end

/-- A zero-page operand is the byte at the operand byte's own value. -/
theorem read_zext16 (mem : Memory) (a : Byte) : mem.read (zext16 a) = mem.lookup a.toNat := by
  rw [Memory.read, zext16_toNat]

/-- An absolute operand is the byte at `hi * 256 + lo`. -/
theorem read_address (mem : Memory) (lo hi : Byte) :
    mem.read (address lo hi) = mem.lookup (hi.toNat * 256 + lo.toNat) := by
  rw [Memory.read, address_toNat]

/-- Settles O10: two bytes fit and two cycles are covered, so each of the three loads completes. -/
theorem immediateLoadsComplete : Obligations.ImmediateLoadsComplete := by
  intro v s covered below
  have fits : s.pc.toNat + 2 ≤ 0xFFFF := Nat.add_le_add_right below 2
  exact ⟨exec_loaded (i := .ldaImm v) fits covered, exec_loaded (i := .ldxImm v) fits covered,
    exec_loaded (i := .ldyImm v) fits covered⟩

/-- Settles O11: two bytes fit and three cycles are covered, so each of the three loads completes. -/
theorem zeroPageLoadsComplete : Obligations.ZeroPageLoadsComplete := by
  intro zp8 s covered below
  have fits : s.pc.toNat + 2 ≤ 0xFFFF := Nat.add_le_add_right below 2
  rw [← read_zext16]
  exact ⟨exec_loaded (i := .ldaZp zp8) fits covered, exec_loaded (i := .ldxZp zp8) fits covered,
    exec_loaded (i := .ldyZp zp8) fits covered⟩

/-- Settles O12: three bytes fit and four cycles are covered, so each of the three loads completes. -/
theorem absoluteLoadsComplete : Obligations.AbsoluteLoadsComplete := by
  intro lo hi s covered below
  have fits : s.pc.toNat + 3 ≤ 0xFFFF := Nat.add_le_add_right below 3
  rw [← read_address]
  exact ⟨exec_loaded (i := .ldaAbs lo hi) fits covered, exec_loaded (i := .ldxAbs lo hi) fits covered,
    exec_loaded (i := .ldyAbs lo hi) fits covered⟩

/-! ### The load whose opcode byte is at `PC` -/

/-- The load of `r` in an addressing mode, with the operand bytes that follow `PC`. Beyond the top of memory
there is no such byte, and what this wraps to there decides nothing (`stepWith_loadAt`). -/
def State.loadAt (s : State) (r : Reg) : Mode → Instr
  | .imm => .immediate r (s.mem.read (s.pc + 1))
  | .zp => .zeroPage r (s.mem.read (s.pc + 1))
  | .abs => .absolute r (s.mem.read (s.pc + 1)) (s.mem.read (s.pc + 2))

theorem dest_loadAt (s : State) (r : Reg) (mode : Mode) : (s.loadAt r mode).dest = r := by
  cases mode <;> simp [State.loadAt]

theorem mode_loadAt (s : State) (r : Reg) (mode : Mode) : (s.loadAt r mode).mode = mode := by
  cases mode <;> simp [State.loadAt]

theorem length_loadAt (s : State) (r : Reg) (mode : Mode) : (s.loadAt r mode).length = 1 + mode.operandBytes := by
  rw [Instr.length, mode_loadAt]

theorem cost_loadAt (s : State) (r : Reg) (mode : Mode) : (s.loadAt r mode).cost = mode.cost := by
  rw [Instr.cost, mode_loadAt]

theorem operandValue_immediate (s : State) (r : Reg) (v : Byte) : operandValue s (.immediate r v) = v := by
  cases r <;> rfl

theorem operandValue_zeroPage (s : State) (r : Reg) (a : Byte) :
    operandValue s (.zeroPage r a) = s.mem.lookup a.toNat := by
  rw [← read_zext16]
  cases r <;> rfl

theorem operandValue_absolute (s : State) (r : Reg) (lo hi : Byte) :
    operandValue s (.absolute r lo hi) = s.mem.lookup (hi.toNat * 256 + lo.toNat) := by
  rw [← read_address]
  cases r <;> rfl

/-- Where the last operand byte exists, the bytes at `PC` decode to the load. -/
theorem decodeWith_window_loadAt {m : OpcodeMap} {s : State} {r : Reg} {mode : Mode}
    (rom : controlRom m (s.mem.read s.pc) = .load r mode) (exist : s.pc.toNat + mode.operandBytes ≤ 0xFFFF) :
    ∃ rest, decodeWith m s.window = .ok (s.loadAt r mode) rest := by
  have operands := (Laws.mode_ranges mode).1
  have below : s.pc ≠ 0xFFFF := by
    rw [Ne, pc_eq_top]
    omega
  rw [decodeWith_window_of_load below rom]
  cases mode with
  | imm | zp => exact ⟨_, by rw [bytesFrom_pc]; rfl⟩
  | abs =>
    have second : s.consumed.pc ≠ 0xFFFF := by
      rw [Ne, pc_eq_top, State.consumed, pc_succ_toNat below]
      exact Nat.ne_of_lt exist
    have third : s.pc + 2 = s.pc + 1 + 1 := (BitVec.add_assoc s.pc 1 1).symm
    exact ⟨_, by rw [bytesFrom_consumed second, bytesFrom_pc, State.loadAt, third]; rfl⟩

/-- A load without its third byte leaves what it would leave with any third byte (60_exceptions.md R168). -/
theorem cutShort_eq_outcome {s : State} {i : Instr} (pc : s.pc.toNat = 0xFFFE) (length : i.length = 3) :
    s.cutShort = outcome s i := by
  have cost := two_le_cost i
  rw [cutShort_eq pc]
  by_cases reached : 2 ≤ s.budget.toNat
  · rw [if_pos reached, outcome_outOfRange (n := 2) (by omega) (by omega) reached]
    rfl
  · rw [if_neg reached, outcome_underrun (by omega) (by omega)]

section
variable {m : OpcodeMap} {s : State} {r : Reg} {mode : Mode} (wf : m.WellFormed) (running : s.run = .running)
  (opcode : s.mem.read s.pc = m.opcodeFor r mode)
include wf running opcode

/-- The step of a core with a load's opcode byte at `PC` is that load. Where the top of memory cuts the load short, it
faults whatever its operand bytes are. -/
theorem stepWith_loadAt (funded : s.budget ≠ 0) : stepWith m s = .next (outcome s (s.loadAt r mode)) := by
  have rom : controlRom m (s.mem.read s.pc) = .load r mode := opcode ▸ controlRom_opcodeFor wf r mode
  have length := length_loadAt s r mode
  by_cases exist : s.pc.toNat + mode.operandBytes ≤ 0xFFFF
  · obtain ⟨rest, decoded⟩ := decodeWith_window_loadAt rom exist
    rw [stepWith_of_decoded running funded decoded, exec_eq]
  by_cases top : s.pc = 0xFFFF
  · rw [stepWith_of_settled running funded (fetch_top funded top),
      outcome_outOfRange (n := 1) (by rw [top]; rfl) (by omega) (budget_ne_zero.mp funded)]
    rfl
  · have below : s.pc.toNat ≠ 0xFFFF := top ∘ pc_eq_top.mpr
    have limit := s.pc.isLt
    cases mode with
    | imm | zp => simp only [Mode.operandBytes] at exist; omega
    | abs =>
      simp only [Mode.operandBytes] at exist
      have second : s.consumed.pc = 0xFFFF := by
        rw [pc_eq_top, State.consumed, pc_succ_toNat top]
        omega
      have truncated : decodeWith m s.window = .bad .truncated := by
        rw [decodeWith_window_of_load top rom, bytesFrom_top second]
        rfl
      rw [stepWith_of_settled running funded (fetch_truncated funded top truncated),
        cutShort_eq_outcome (by omega) length]

/-- With its cost covered and all its bytes below `0xFFFF`, the load completes. -/
theorem stepWith_loadAt_completes (covered : mode.cost ≤ s.budget.toNat)
    (fits : s.pc.toNat + (1 + mode.operandBytes) ≤ 0xFFFF) :
    stepWith m s = .next (s.loaded r (operandValue s (s.loadAt r mode)) (BitVec.ofNat 16 (1 + mode.operandBytes))
      (BitVec.ofNat 32 mode.cost)) := by
  obtain ⟨_, _, positive, _⟩ := Laws.mode_ranges mode
  rw [← length_loadAt s r mode] at fits ⊢
  rw [← cost_loadAt s r mode] at covered positive ⊢
  rw [stepWith_loadAt wf running opcode (budget_ne_zero.mpr (Nat.le_trans positive covered)),
    outcome_loaded fits covered, dest_loadAt]

/-- With fewer cycles than its cost, and the bytes they reach below `0xFFFF`, the load underruns. -/
theorem stepWith_loadAt_underruns {k : Nat} (left : s.budget.toNat = k) (positive : 0 < k) (short : k < mode.cost)
    (below : s.pc.toNat + min k (1 + mode.operandBytes) ≤ 0xFFFF) :
    stepWith m s = .next (s.faulted .budgetUnderrun 0) := by
  subst left
  rw [← length_loadAt s r mode] at below
  rw [← cost_loadAt s r mode] at short
  rw [stepWith_loadAt wf running opcode (budget_ne_zero.mpr positive), outcome_underrun short below]

/-- With its `n`-th byte at `0xFFFF` and `n` cycles of budget, the load goes out of range. -/
theorem stepWith_loadAt_outOfRange {n : Nat} (reached : n ≤ s.budget.toNat) (top : s.pc.toNat + n = 0x10000)
    (within : n ≤ 1 + mode.operandBytes) :
    stepWith m s = .next (s.faulted .outOfRange (s.budget - BitVec.ofNat 32 n)) := by
  have := s.pc.isLt
  rw [← length_loadAt s r mode] at within
  rw [stepWith_loadAt wf running opcode (budget_ne_zero.mpr (by omega)), outcome_outOfRange top within reached]

/-! The faults of every load, whatever its length and cost. -/

theorem stepWith_loadAt_one_cycle (left : s.budget = 1) (below : s.pc ≠ 0xFFFF) :
    stepWith m s = .next (s.faulted .budgetUnderrun 0) := by
  have := s.pc.isLt
  rw [Ne, pc_eq_top] at below
  exact stepWith_loadAt_underruns wf running opcode (k := 1) (by rw [left]; rfl) Nat.one_pos
    (by cases mode <;> decide) (by omega)

theorem stepWith_loadAt_second_last (reached : 2 ≤ s.budget.toNat) (pc : s.pc = 0xFFFE) :
    stepWith m s = .next (s.faulted .outOfRange (s.budget - 2)) :=
  stepWith_loadAt_outOfRange wf running opcode reached (by rw [pc]; rfl) (Laws.mode_ranges mode).1

theorem stepWith_loadAt_top (reached : 1 ≤ s.budget.toNat) (top : s.pc = 0xFFFF) :
    stepWith m s = .next (s.faulted .outOfRange (s.budget - 1)) :=
  stepWith_loadAt_outOfRange wf running opcode reached (by rw [top]; rfl) (Nat.le_add_right 1 _)

end

/-- Settles O13: the literal is the second byte, and two cycles reach it. -/
theorem immediateLoadSteps : Obligations.ImmediateLoadSteps := by
  refine ⟨rfl, rfl, rfl, fun r v => by cases r <;> exact ⟨rfl, rfl, rfl⟩, fun m r s wf running opcode => ?_⟩
  refine ⟨fun covered below => ?_, stepWith_loadAt_one_cycle wf running opcode,
    stepWith_loadAt_second_last wf running opcode, stepWith_loadAt_top wf running opcode⟩
  have completes := stepWith_loadAt_completes wf running opcode covered (Nat.add_le_add_right below 2)
  rwa [State.loadAt, operandValue_immediate] at completes

/-- Settles O14: the third cycle reads the data byte, so it can underrun but not go out of range. -/
theorem zeroPageLoadSteps : Obligations.ZeroPageLoadSteps := by
  refine ⟨rfl, rfl, rfl, fun r a => by cases r <;> exact ⟨rfl, rfl, rfl⟩, fun m r s wf running opcode => ?_⟩
  refine ⟨fun covered below => ?_, stepWith_loadAt_one_cycle wf running opcode, fun left below => ?_,
    stepWith_loadAt_second_last wf running opcode, stepWith_loadAt_top wf running opcode⟩
  · have completes := stepWith_loadAt_completes wf running opcode covered (Nat.add_le_add_right below 2)
    rwa [State.loadAt, operandValue_zeroPage] at completes
  · exact stepWith_loadAt_underruns wf running opcode (congrArg BitVec.toNat left) (by decide) (by decide)
      (Nat.add_le_add_right below 2)

/-- Settles O15: the third byte is an operand byte, so it too can underrun or be at the top of memory. -/
theorem absoluteLoadSteps : Obligations.AbsoluteLoadSteps := by
  refine ⟨rfl, rfl, rfl, fun r lo hi => by cases r <;> exact ⟨rfl, rfl, rfl⟩, fun m r s wf running opcode => ?_⟩
  refine ⟨fun covered below => ?_, stepWith_loadAt_one_cycle wf running opcode, fun left below => ?_,
    fun left below => ?_, fun reached pc => ?_, stepWith_loadAt_second_last wf running opcode,
    stepWith_loadAt_top wf running opcode⟩
  · have completes := stepWith_loadAt_completes wf running opcode covered (Nat.add_le_add_right below 3)
    rwa [State.loadAt, operandValue_absolute] at completes
  · exact stepWith_loadAt_underruns wf running opcode (congrArg BitVec.toNat left) (by decide) (by decide)
      (Nat.add_le_add_right below 2)
  · exact stepWith_loadAt_underruns wf running opcode (congrArg BitVec.toNat left) (by decide) (by decide)
      (Nat.add_le_add_right below 3)
  · exact stepWith_loadAt_outOfRange wf running opcode reached (by rw [pc]; rfl) (Nat.le_refl 3)

end Sys2Proof.Machine

/-! ## Faults (60_exceptions.md)

Which end an instruction comes to is read off `outcome`, and what a fault leaves is read off the effect of a step that
faults (`FaultLeaves`). -/

namespace Sys2Proof.Machine

/-! ### Completion and underrun -/

/-- Settles O17: an instruction that does not fit, or whose cost is not covered, ends in a fault, which halts. -/
theorem execCompletesExactlyWhenItFits : Obligations.ExecCompletesExactlyWhenItFits := by
  intro i s running
  constructor
  · rintro ⟨t, h, running'⟩
    rw [exec_eq] at h
    injection h with h
    subst h
    obtain ⟨fits, covered, _⟩ | ⟨f, left, _, faults⟩ := outcome_effect s i
    · exact ⟨covered, fits⟩
    · rw [faults s (sameControl_refl s)] at running'
      exact nomatch running'
  · rintro ⟨covered, fits⟩
    exact ⟨_, exec_loaded fits covered, (setReg_run s _ _).trans running⟩

/-- Settles O22: with no budget the core halts without a fault; a covered cost lets the instruction complete, also
without one. -/
theorem underrunExactlyWhenBudgetIsShort : Obligations.UnderrunExactlyWhenBudgetIsShort := by
  intro m s i rest running clear decoded fits
  constructor
  · rintro ⟨t, h, underrun⟩
    refine ⟨budget_ne_zero.mp fun spent => ?_, Nat.lt_of_not_le fun covered => ?_⟩
    · cases (stepWith_of_spent m running spent).symm.trans h
      exact nomatch clear.symm.trans underrun
    · cases (stepWith_completes running decoded fits covered).symm.trans h
      exact nomatch clear.symm.trans ((setReg_fault s _ _).symm.trans underrun)
  · rintro ⟨funded, short⟩
    refine ⟨s.faulted .budgetUnderrun 0, ?_, rfl⟩
    rw [stepWith_of_decoded running (budget_ne_zero.mpr funded) decoded, exec_eq, outcome_underrun short (by omega)]

/-! ### The order of the faults -/

/-- Settles O20: the halt test comes before the opcode cycle, and the opcode cycle before decode; a load goes out of
range where its budget reaches a byte at `0xFFFF`, and underruns where the budget ends first. -/
theorem firstFaultInCycleOrderIsReported : Obligations.FirstFaultInCycleOrderIsReported := by
  intro m s wf running
  refine ⟨stepWith_of_spent m running, fun funded top => stepWith_of_settled running funded (fetch_top funded top),
    fun funded below other => ?_, fun r mode opcode => ?_⟩
  · have faults := stepWith_of_notMem_executed running funded below other
    exact ⟨fun known => by rwa [if_pos known] at faults, fun unknown => by rwa [if_neg unknown] at faults⟩
  · refine ⟨fun pc left => stepWith_loadAt_one_cycle wf running opcode left (by rw [pc]; decide),
      fun pc reached => stepWith_loadAt_second_last wf running opcode reached pc, ?_, ?_, fun fits funded short => ?_⟩
    · rintro pc rfl left
      exact stepWith_loadAt_underruns wf running opcode (congrArg BitVec.toNat left) (by decide) (by decide)
        (by rw [pc]; decide)
    · rintro pc rfl reached
      exact stepWith_loadAt_outOfRange wf running opcode reached (by rw [pc]; rfl) (Nat.le_refl 3)
    · exact stepWith_loadAt_underruns wf running opcode rfl (budget_ne_zero.mp funded) short (by omega)

/-! ### Fault entry -/

/-- A budget with one cycle spent is the predecessor of what it was, and there was one to spend. -/
theorem eq_pred_of_one_cycle_spent {left budget : Count} (spent : left.toNat + 1 = budget.toNat) :
    left = budget - 1 ∧ budget ≠ 0 := by
  have funded : budget ≠ 0 := budget_ne_zero.mpr (by omega)
  exact ⟨BitVec.eq_of_toNat_eq (by rw [budget_pred_toNat funded]; omega), funded⟩

/-- An instruction of at most three bytes has one at `0xFFFF` only from these addresses (60_exceptions.md R170). -/
theorem pc_cases_of_near_top {p : Addr} (near : 0xFFFD ≤ p.toNat) : p = 0xFFFD ∨ p = 0xFFFE ∨ p = 0xFFFF := by
  have limit := p.isLt
  simp only [← BitVec.toNat_inj, BitVec.reduceToNat]
  omega

/-- Of what a step can do to a running core with no fault, only fault entry sets `FAULT`. -/
theorem faultEntry_of_step {m : OpcodeMap} {s t : State} {f : FaultKind} (running : s.run = .running)
    (clear : s.fault = none) (h : stepWith m s = .next t) (faulted : t.fault = some f) :
    ∃ left, t = s.faulted f left ∧ s.FaultLeaves left f := by
  obtain ⟨e, occurs, rfl⟩ := effect_of_step h
  cases occurs with
  | stay halted => exact nomatch running.symm.trans halted
  | halt => exact nomatch clear.symm.trans faulted
  | fault _ _ leaves =>
    cases faulted
    exact ⟨_, rfl, leaves⟩
  | load => exact nomatch clear.symm.trans ((setReg_fault s _ _).symm.trans faulted)

/-- Settles O21: fault entry restores `PC` and writes nothing else, and the budget left is read off for each kind. -/
theorem faultEntryIsPrecise : Obligations.FaultEntryIsPrecise := by
  intro m s t f running clear h faulted
  obtain ⟨left, rfl, leaves⟩ := faultEntry_of_step running clear h faulted
  refine ⟨rfl, ?_, ?_, ?_⟩
  · rintro (rfl | rfl) <;> exact eq_pred_of_one_cycle_spent leaves
  · rintro rfl
    obtain ⟨none_left, _⟩ := leaves
    exact none_left
  · rintro rfl
    obtain ⟨near, spent⟩ := leaves
    exact ⟨spent, pc_cases_of_near_top near⟩

/-! ### At most one fault -/

/-- A set `FAULT` means a halted core (10_state.md R38), whatever the memory: the part of the invariant that a run
from an arbitrary image keeps. -/
def State.HaltedIfFaulted (s : State) : Prop := s.fault ≠ none → s.run = .halted

theorem step_keeps_haltedIfFaulted {m : OpcodeMap} {s t : State} (inv : s.HaltedIfFaulted)
    (h : stepWith m s = .next t) : t.HaltedIfFaulted := by
  obtain ⟨e, occurs, rfl⟩ := effect_of_step h
  cases occurs with
  | stay => exact inv
  | halt | fault => exact fun _ => rfl
  | load _ _ running =>
    intro faulted
    exact nomatch running.symm.trans (inv fun clear => faulted ((setReg_fault s _ _).trans clear))

/-- Settles O23: a faulted core is halted, so every later step leaves it as it is. -/
theorem atMostOneFaultInARun : Obligations.AtMostOneFaultInARun := by
  constructor
  · rintro m s ⟨_, inv, _⟩ faulted k
    exact runWith_of_halted m (inv faulted) k
  · intro m r j k le faulted
    obtain ⟨d, rfl⟩ := Nat.exists_eq_add_of_le le
    have inv : (runWith m j (State.resetWith r)).HaltedIfFaulted :=
      runWith_keeps (fun _ _ => step_keeps_haltedIfFaulted) j (absurd (resetWith_fault r))
    rw [runWith_add, runWith_of_halted m (inv faulted)]

end Sys2Proof.Machine

/-! ## Reset and the host's load (70_reset_and_hazards.md)

What the host writes before reset is what the core finds: the image byte by byte, and a table word placed at `PC`
together with the budget that its instruction costs. -/

namespace Sys2Proof

namespace Memory

/-! ### The loaded image -/

theorem load_append_singleton (writes : List (Addr × Byte)) (w : Addr × Byte) :
    load (writes ++ [w]) = (load writes).write w.1 w.2 :=
  List.foldl_append

theorem read_load_append_singleton (writes : List (Addr × Byte)) (w : Addr × Byte) (a : Addr) :
    (load (writes ++ [w])).read a = if a = w.1 then w.2 else (load writes).read a := by
  rw [load_append_singleton, read_write (load_wf writes)]

/-- Later writes to other addresses leave a byte as the earlier ones left it. -/
theorem read_load_append_of_ne (before : List (Addr × Byte)) {after : List (Addr × Byte)} {a : Addr}
    (others : ∀ w ∈ after, w.1 ≠ a) : (load (before ++ after)).read a = (load before).read a := by
  induction after generalizing before with
  | nil => rw [List.append_nil]
  | cons w rest ih =>
    obtain ⟨first_other, rest_other⟩ := List.forall_mem_cons.mp others
    rw [List.append_cons, ih (before ++ [w]) rest_other, read_load_append_singleton, if_neg first_other.symm]

end Memory

/-- Settles O34: the last write to the address gives its byte, and the writes after it are to other addresses. -/
theorem loadedImageHoldsTheLastWrite : Obligations.LoadedImageHoldsTheLastWrite := by
  intro before after a v others
  rw [List.append_cons, Memory.read_load_append_of_ne _ others, Memory.read_load_append_singleton, if_pos rfl]

/-! ### A table word at `PC` -/

theorem decodeTableWord_eq_some {nbits w : Nat} {i : Instr} (h : decodeTableWord nbits w = some i) :
    ∃ rest, decode (wordBytes nbits w) = .ok i rest := by
  rw [decodeTableWord] at h
  cases decoded : decode (wordBytes nbits w) with
  | ok j rest =>
    rw [decoded] at h
    cases h
    exact ⟨rest, rfl⟩
  | bad e => rw [decoded] at h; cases h

/-- Bytes placed below the top of memory are the bytes read there. -/
theorem Memory.bytesFrom_place {mem : Memory} (wf : mem.wf = true) {bytes : List Byte} {a : Nat}
    (fits : a + bytes.length ≤ 0x10000) : (place bytes a mem).bytesFrom bytes.length a = bytes :=
  bytesFrom_eq fits fun _ => lookup_place_same wf bytes fits

namespace Machine

/-- The three bytes at `PC` are those of the word the host placed there. -/
theorem window_placeWord {s : State} (wf : s.mem.wf = true) (fits : s.pc.toNat + 3 ≤ 0x10000) (nbits w : Nat) :
    (s.placeWord nbits w).window = wordBytes nbits w :=
  Memory.bytesFrom_place wf (bytes := wordBytes nbits w) fits

theorem budgetFor_of_decoded {bytes rest : List Byte} {i : Instr} (h : decode bytes = .ok i rest) :
    budgetFor bytes = BitVec.ofNat 32 i.cost := by
  rw [budgetFor, h]

theorem placeWord_budget (s : State) (nbits w : Nat) :
    (s.placeWord nbits w).budget =
      if s.budget < budgetFor (wordBytes nbits w) then budgetFor (wordBytes nbits w) else s.budget := rfl

/-- The host raises the budget to what the word needs. -/
theorem budgetFor_le_placeWord_budget (s : State) (nbits w : Nat) :
    (budgetFor (wordBytes nbits w)).toNat ≤ (s.placeWord nbits w).budget.toNat := by
  rw [placeWord_budget]
  split
  next => exact Nat.le_refl _
  next enough => exact Nat.le_of_not_lt enough

/-- The budget the host leaves covers the instruction it placed. -/
theorem cost_le_placeWord_budget (s : State) {nbits w : Nat} {i : Instr} {rest : List Byte}
    (h : decode (wordBytes nbits w) = .ok i rest) : i.cost ≤ (s.placeWord nbits w).budget.toNat := by
  have covered := budgetFor_le_placeWord_budget s nbits w
  have small := cost_le_four i
  rw [budgetFor_of_decoded h, BitVec.toNat_ofNat, Nat.mod_eq_of_lt (by omega)] at covered
  exact covered

/-- Settles O37: the step decodes the placed word, and both the room below the top and the budget suffice. -/
theorem placedWordRunsNext : Obligations.PlacedWordRunsNext := by
  intro s nbits w i wf low word
  obtain ⟨rest, decoded⟩ := decodeTableWord_eq_some word
  have covered := cost_le_placeWord_budget s decoded
  have length := length_eq_two_or_three i
  have fits : (s.placeWord nbits w).pc.toNat + i.length ≤ 0xFFFF := by rw [placeWord_pc]; omega
  rw [← window_placeWord wf (by omega) nbits w] at decoded
  have completes := stepWith_completes (placeWord_run s nbits w) decoded fits covered
  exact ⟨completes.trans (exec_loaded fits covered).symm, _, completes, setReg_run .., setReg_fault ..,
    reg_loaded_same ..⟩

/-! ### The state after reset -/

/-- Settles O33: each field after reset is an input or a constant; a byte nothing was written to is that of the
memory as created. -/
theorem resetState : Obligations.ResetState :=
  ⟨fun r => ⟨resetWith_pc r, resetWith_run r, resetWith_budget r, resetWith_fault r, fun _ => by rw [resetWith_mem]⟩,
    fun image budget a x y sp flags => ⟨⟨image, budget, a, x, y, sp, flags⟩, rfl⟩,
    fun _ _ others => Memory.read_load_append_of_ne [] others⟩

/-- A running core with no fault is in the invariant when its memory is in canonical form. -/
theorem inv_of_running {s : State} (wf : s.mem.wf = true) (running : s.run = .running) (clear : s.fault = none) :
    s.Inv :=
  ⟨wf, fun faulted => absurd clear faulted, fun ⟨halted, _⟩ => (nomatch running.symm.trans halted),
    fun underrun => (nomatch clear.symm.trans underrun),
    fun outOfRange => (nomatch clear.symm.trans outOfRange)⟩

/-- Settles O32: reset leaves a running core with no fault. -/
theorem resetMeetsTheInvariant : Obligations.ResetMeetsTheInvariant :=
  have inv (r : RunInputs) (wf : r.WellFormed) :=
    inv_of_running (s := State.resetWith r) wf (resetWith_run r) (resetWith_fault r)
  ⟨inv, inv resetInputs Memory.nil_wf⟩

end Machine

end Sys2Proof
